-- ==== Sys2Proof/Word.lean ====
section
/-! DEFINITION. The words of the block: bytes, the 16-bit operand fields, and what its two sides carry: operation
descriptors on the operation port and device commands on the controller's command path. -/

namespace Sys2Proof

/-- A byte, bit 0 the least significant (00_scope.md R10). -/
abbrev Byte := BitVec 8

/-- A 16-bit two's-complement operand field (00_scope.md R11, 30_encoding.md R82). -/
abbrev S16 := BitVec 16

/-- The four shapes in which the controller talks to the device (30_encoding.md R101, R102): a command with no, one or two
argument bytes, and the data transfer, whose pixel bytes are the framebuffer's own. -/
inductive CmdWord where
  | cmd0 (op : Byte)
  | cmd1 (op a1 : Byte)
  | cmd2 (op a1 a2 : Byte)
  | data
  deriving DecidableEq, Repr

/-- An encoded instruction: a host operation descriptor (30_encoding.md part 1) or a device command (part 2). The two are
separate encoding spaces: a descriptor whose byte 0 is 0x20 is refused, the command 0x20 is MEMORYMODE (log 9). -/
inductive Code where
  | operation (descriptor : List Byte)
  | command (word : CmdWord)
  deriving DecidableEq, Repr

/-- The causes of a refusal (60_exceptions.md R253). -/
inductive RefusalCause where
  /-- RF1: byte 0 of the descriptor is 0x0C to 0xFF. -/
  | reservedOpcode
  /-- RF2: the descriptor is shorter or longer than its format requires. -/
  | wrongLength
  /-- RF3: a reserved bit of a flags byte, or bit 7 of CONSTRUCT's address, is 1. -/
  | reservedBit
  /-- RF4: CONSTRUCT with width 0, height 0 or a height that is not a multiple of 8. -/
  | badGeometry
  /-- RF5: CONSTRUCT while Ready, any other operation while Uninitialized. -/
  | wrongState
  deriving DecidableEq, Repr

/-- Why no instruction is read from an encoded word. -/
inductive Reject where
  /-- The descriptor is refused by the decoder (RF1, RF2 or RF3). -/
  | refused (cause : RefusalCause)
  /-- The command word is none of the nineteen commands with their arities (30_encoding.md R100, R103). -/
  | unknownCommand
  deriving DecidableEq, Repr

end Sys2Proof
end

