-- ==== Sys2Proof/Config.lean ====
section
/-! DEFINITION. What the spec leaves open, as constants without a body (00_scope.md R8, 92_eei_decisions.md), and the constants it fixes
(R9). Nothing can be proved about the value of an `opaque` constant, so every claim holds whatever it is. -/

namespace Sys2Proof.Config

/-- `GLYPH_ROM[g][c]`: the 7-bit pattern of column `c` (0 to 4) of entry `g` (0 to 95); OPEN (10_state.md R31, 92 D11; log 11). -/
opaque glyphRom (g c : Nat) : BitVec 7

/-- Argument of SETDISPLAYCLOCKDIV in the init sequence; OPEN (00_scope.md R8, 92 D8; log 11). -/
opaque clkdivArg : Byte
/-- Argument of CHARGEPUMP when EXTVCC = 1; OPEN (R8; log 11). -/
opaque chargepumpExt : Byte
/-- Argument of CHARGEPUMP when EXTVCC = 0; OPEN (R8; log 11). -/
opaque chargepumpInt : Byte
/-- Argument of MEMORYMODE meaning page mode; OPEN (R8; log 11). -/
opaque memmodePage : Byte
/-- Argument of SETCOMPINS when HEIGHT = 64; OPEN (R8; log 11). -/
opaque compins64 : Byte
/-- Argument of SETCOMPINS at every other height; OPEN (R8; log 11). -/
opaque compinsOther : Byte
/-- Argument of SETPRECHARGE when EXTVCC = 1; OPEN (R8; log 11). -/
opaque prechargeExt : Byte
/-- Argument of SETPRECHARGE when EXTVCC = 0; OPEN (R8; log 11). -/
opaque prechargeInt : Byte
/-- Argument of SETVCOMDETECT; OPEN (R8; log 11). -/
opaque vcomdetectArg : Byte

/-- The byte that framebuffer index `i` holds from draw number `draw` on until it is written: a free value
(10_state.md R45 to R47, 93 U1; log 3). -/
opaque freeFb (draw i : Nat) : Byte

/-- WIDTH after DESTROY or a reset event: a free value (10_state.md R47, 93 U2; log 5). -/
opaque freeWidth (draw : Nat) : Byte
/-- HEIGHT after DESTROY or a reset event: a free value (log 5). -/
opaque freeHeight (draw : Nat) : Byte
/-- PAGES after DESTROY or a reset event: a free value (log 5). -/
opaque freePages (draw : Nat) : BitVec 5
/-- ADDR after DESTROY or a reset event: a free value (log 5). -/
opaque freeAddr (draw : Nat) : BitVec 7
/-- EXTVCC after DESTROY or a reset event: a free value (log 5). -/
opaque freeExtVcc (draw : Nat) : Bool

/-- The framebuffer RAM's size in bytes, 255 * 31 + 1 (00_scope.md R7). -/
def fbMax : Nat := 7906

/-- The control byte of a command byte write (00_scope.md R9). -/
def ctrlCmd : Byte := 0x00

/-- The control byte of the data transfer (00_scope.md R9). -/
def ctrlData : Byte := 0x40

/-- The text advance in pixels (00_scope.md R9). -/
def textAdvance : Int := 6

end Sys2Proof.Config
end

