-- ==== Sys2Proof/Syntax.lean ====
section
/-! DEFINITION. The instructions: one constructor per row of spec/opcode_table.json, the twelve host operations first, then the
nineteen device commands and the data transfer. -/

namespace Sys2Proof

/-- The typed operations of 30_encoding.md R80 (fields R83 to R92) and the device commands of R100 (arguments R101). -/
inductive Instr where
  /-- CONSTRUCT, format CON (R84). -/
  | construct (width height : Byte) (address : BitVec 7) (extVcc : Bool)
  /-- DESTROY, format NUL (R83). -/
  | destroy
  /-- CLEAR, format NUL (R83). -/
  | clear
  /-- RENDER, format NUL (R83). -/
  | render
  /-- SETCONTRAST, format U8 (R85). -/
  | setContrast (level : Byte)
  /-- SETINVERT, format FLG (R86). -/
  | setInvert (invert : Bool)
  /-- SETPIXEL, format PIX (R87). -/
  | setPixel (x y : S16)
  /-- CLEARPIXEL, format PIX (R87). -/
  | clearPixel (x y : S16)
  /-- DRAWLINE, format LIN (R88). -/
  | drawLine (x1 y1 x2 y2 : S16) (set : Bool)
  /-- DRAWBOX, format BOX (R89). -/
  | drawBox (x y w h : S16) (filled set : Bool)
  /-- DRAWCHAR, format CHR (R90). -/
  | drawChar (x y : S16) (ch : Byte) (set : Bool)
  /-- DRAWTEXT, format TXT (R92). -/
  | drawText (x y : S16) (set : Bool) (text : List Byte)
  /-- CMD.MEMORYMODE 0x20. -/
  | cmdMemoryMode (a1 : Byte)
  /-- CMD.COLUMNADDR 0x21. -/
  | cmdColumnAddr (a1 a2 : Byte)
  /-- CMD.PAGEADDR 0x22. -/
  | cmdPageAddr (a1 a2 : Byte)
  /-- CMD.SETSTARTLINE 0x40. -/
  | cmdSetStartLine
  /-- CMD.SETCONTRAST 0x81. -/
  | cmdSetContrast (a1 : Byte)
  /-- CMD.CHARGEPUMP 0x8D. -/
  | cmdChargePump (a1 : Byte)
  /-- CMD.SEGREMAP 0xA1. -/
  | cmdSegRemap
  /-- CMD.DISPLAYALLON 0xA4. -/
  | cmdDisplayAllOn
  /-- CMD.NORMALDISPLAY 0xA6. -/
  | cmdNormalDisplay
  /-- CMD.INVERTDISPLAY 0xA7. -/
  | cmdInvertDisplay
  /-- CMD.SETMULTIPLEX 0xA8. -/
  | cmdSetMultiplex (a1 : Byte)
  /-- CMD.DISPLAYOFF 0xAE. -/
  | cmdDisplayOff
  /-- CMD.DISPLAYON 0xAF. -/
  | cmdDisplayOn
  /-- CMD.COMSCANDEC 0xC8. -/
  | cmdComScanDec
  /-- CMD.SETDISPLAYOFFSET 0xD3. -/
  | cmdSetDisplayOffset (a1 : Byte)
  /-- CMD.SETDISPLAYCLOCKDIV 0xD5. -/
  | cmdSetDisplayClockDiv (a1 : Byte)
  /-- CMD.SETPRECHARGE 0xD9. -/
  | cmdSetPrecharge (a1 : Byte)
  /-- CMD.SETCOMPINS 0xDA. -/
  | cmdSetComPins (a1 : Byte)
  /-- CMD.SETVCOMDETECT 0xDB. -/
  | cmdSetVcomDetect (a1 : Byte)
  /-- CMD.DATA, the data transfer (R102); its pixel bytes are the framebuffer's, not an operand (log 10). -/
  | cmdData
  deriving DecidableEq, Repr

end Sys2Proof
end

