-- ==== Sys2Proof/WellFormed.lean ====
section
/-! DEFINITION. Which instructions are well-formed (30_encoding.md R93): CONSTRUCT's operand ranges and the length DRAWTEXT's
length byte can hold. Every other field's range is its type. -/

namespace Sys2Proof

/-- CONSTRUCT's operand ranges (30_encoding.md R84): width 1 to 255, height 8, 16, ..., 248. -/
def geometryOk (width height : Byte) : Bool :=
  width != 0 && height != 0 && height.toNat % 8 == 0

/-- The instruction has a well-formed encoding (30_encoding.md R92, R93). -/
def wellFormed : Instr → Bool
  | .construct w h _ _ => geometryOk w h
  | .drawText _ _ _ text => decide (text.length ≤ 255)
  | _ => true

end Sys2Proof
end

