-- ==== Sys2Proof/Decode.lean ====
section
/-! DEFINITION. The decoder and, after it, the encoder. Two encoding spaces: operation descriptors (30_encoding.md R80 to R94) and
device commands (R100 to R103). -/

namespace Sys2Proof

/-! ### Fields (30_encoding.md R82) -/

/-- The `s16` field whose bytes are `lo` (first) and `hi`: least significant byte first (R82). -/
def s16 (lo hi : Byte) : S16 := hi ++ lo

/-- A bit of the flags byte at position `n` or above is 1: a reserved bit (R82). -/
def reservedSet (n : Nat) (flags : Byte) : Bool := flags >>> n != 0

/-! ### Operation descriptors -/

/-- Format NUL (R83): nothing follows the opcode. -/
def decodeNul (i : Instr) : List Byte → Except RefusalCause Instr
  | [] => .ok i
  | _ => .error .wrongLength

/-- Format CON (R84). The operand ranges are not checked here: RF5 is reported before RF4 (60_exceptions.md R256). -/
def decodeCon : List Byte → Except RefusalCause Instr
  | [w, h, a, f] =>
    if a.getLsbD 7 || reservedSet 1 f then .error .reservedBit
    else .ok (.construct w h (a.setWidth 7) (f.getLsbD 0))
  | _ => .error .wrongLength

/-- Format U8 (R85). -/
def decodeU8 : List Byte → Except RefusalCause Instr
  | [level] => .ok (.setContrast level)
  | _ => .error .wrongLength

/-- Format FLG (R86). -/
def decodeFlg : List Byte → Except RefusalCause Instr
  | [f] => if reservedSet 1 f then .error .reservedBit else .ok (.setInvert (f.getLsbD 0))
  | _ => .error .wrongLength

/-- Format PIX (R87). -/
def decodePix (mk : S16 → S16 → Instr) : List Byte → Except RefusalCause Instr
  | [x0, x1, y0, y1] => .ok (mk (s16 x0 x1) (s16 y0 y1))
  | _ => .error .wrongLength

/-- Format LIN (R88). -/
def decodeLin : List Byte → Except RefusalCause Instr
  | [x0, x1, y0, y1, u0, u1, v0, v1, f] =>
    if reservedSet 1 f then .error .reservedBit
    else .ok (.drawLine (s16 x0 x1) (s16 y0 y1) (s16 u0 u1) (s16 v0 v1) (f.getLsbD 0))
  | _ => .error .wrongLength

/-- Format BOX (R89): bit 0 of the flags is `set`, bit 1 is `filled`. -/
def decodeBox : List Byte → Except RefusalCause Instr
  | [x0, x1, y0, y1, w0, w1, h0, h1, f] =>
    if reservedSet 2 f then .error .reservedBit
    else .ok (.drawBox (s16 x0 x1) (s16 y0 y1) (s16 w0 w1) (s16 h0 h1) (f.getLsbD 1) (f.getLsbD 0))
  | _ => .error .wrongLength

/-- Format CHR (R90). -/
def decodeChr : List Byte → Except RefusalCause Instr
  | [x0, x1, y0, y1, ch, f] =>
    if reservedSet 1 f then .error .reservedBit
    else .ok (.drawChar (s16 x0 x1) (s16 y0 y1) ch (f.getLsbD 0))
  | _ => .error .wrongLength

/-- Format TXT (R92): the length is 7 plus byte 6, and it is checked before the reserved bits (R256). -/
def decodeTxt : List Byte → Except RefusalCause Instr
  | x0 :: x1 :: y0 :: y1 :: f :: len :: text =>
    if text.length ≠ len.toNat then .error .wrongLength
    else if reservedSet 1 f then .error .reservedBit
    else .ok (.drawText (s16 x0 x1) (s16 y0 y1) (f.getLsbD 0) text)
  | _ => .error .wrongLength

/-- The decoder of the operation port (R93, R94): RF1, then RF2, then RF3. DEDUCED: a descriptor of no bytes has the wrong
length (log 15). -/
def decodeDescriptor : List Byte → Except RefusalCause Instr
  | [] => .error .wrongLength
  | op :: body =>
    match op.toNat with
    | 0x00 => decodeCon body
    | 0x01 => decodeNul .destroy body
    | 0x02 => decodeNul .clear body
    | 0x03 => decodeNul .render body
    | 0x04 => decodeU8 body
    | 0x05 => decodeFlg body
    | 0x06 => decodePix .setPixel body
    | 0x07 => decodePix .clearPixel body
    | 0x08 => decodeLin body
    | 0x09 => decodeBox body
    | 0x0A => decodeChr body
    | 0x0B => decodeTxt body
    | _ => .error .reservedOpcode

/-! ### Device commands (30_encoding.md R100) -/

/-- The commands without an argument. -/
def decodeCmd0 (op : Byte) : Option Instr :=
  match op.toNat with
  | 0x40 => some .cmdSetStartLine
  | 0xA1 => some .cmdSegRemap
  | 0xA4 => some .cmdDisplayAllOn
  | 0xA6 => some .cmdNormalDisplay
  | 0xA7 => some .cmdInvertDisplay
  | 0xAE => some .cmdDisplayOff
  | 0xAF => some .cmdDisplayOn
  | 0xC8 => some .cmdComScanDec
  | _ => none

/-- The commands with one argument. -/
def decodeCmd1 (op a1 : Byte) : Option Instr :=
  match op.toNat with
  | 0x20 => some (.cmdMemoryMode a1)
  | 0x81 => some (.cmdSetContrast a1)
  | 0x8D => some (.cmdChargePump a1)
  | 0xA8 => some (.cmdSetMultiplex a1)
  | 0xD3 => some (.cmdSetDisplayOffset a1)
  | 0xD5 => some (.cmdSetDisplayClockDiv a1)
  | 0xD9 => some (.cmdSetPrecharge a1)
  | 0xDA => some (.cmdSetComPins a1)
  | 0xDB => some (.cmdSetVcomDetect a1)
  | _ => none

/-- The commands with two arguments. -/
def decodeCmd2 (op a1 a2 : Byte) : Option Instr :=
  match op.toNat with
  | 0x21 => some (.cmdColumnAddr a1 a2)
  | 0x22 => some (.cmdPageAddr a1 a2)
  | _ => none

/-- The instruction a command word stands for; `none` outside the closed set (R103). -/
def decodeCommand : CmdWord → Option Instr
  | .cmd0 op => decodeCmd0 op
  | .cmd1 op a1 => decodeCmd1 op a1
  | .cmd2 op a1 a2 => decodeCmd2 op a1 a2
  | .data => some .cmdData

/-- The decoder of both spaces: total, rejecting by name. -/
def decode : Code → Except Reject Instr
  | .operation d =>
    match decodeDescriptor d with
    | .ok i => .ok i
    | .error c => .error (.refused c)
  | .command w =>
    match decodeCommand w with
    | some i => .ok i
    | none => .error .unknownCommand

/-! ### The encoder -/

/-- The low byte of an `s16` field, stored first (R82). -/
def lowByte (v : S16) : Byte := v.extractLsb' 0 8

/-- The high byte of an `s16` field, stored second (R82). -/
def highByte (v : S16) : Byte := v.extractLsb' 8 8

/-- A one-bit field of a flags byte at bit `n` (R82). -/
def flagBit (n : Nat) (b : Bool) : Byte := if b then (1 : Byte) <<< n else 0

/-- The encoding of an instruction: the descriptor of a host operation (R83 to R92), the command word of a device command
(R100 to R102). -/
def encode : Instr → Code
  | .construct w h a e => .operation [0x00, w, h, a.setWidth 8, flagBit 0 e]
  | .destroy => .operation [0x01]
  | .clear => .operation [0x02]
  | .render => .operation [0x03]
  | .setContrast level => .operation [0x04, level]
  | .setInvert b => .operation [0x05, flagBit 0 b]
  | .setPixel x y => .operation [0x06, lowByte x, highByte x, lowByte y, highByte y]
  | .clearPixel x y => .operation [0x07, lowByte x, highByte x, lowByte y, highByte y]
  | .drawLine x1 y1 x2 y2 set =>
    .operation [0x08, lowByte x1, highByte x1, lowByte y1, highByte y1, lowByte x2, highByte x2, lowByte y2, highByte y2,
      flagBit 0 set]
  | .drawBox x y w h filled set =>
    .operation [0x09, lowByte x, highByte x, lowByte y, highByte y, lowByte w, highByte w, lowByte h, highByte h,
      flagBit 1 filled ||| flagBit 0 set]
  | .drawChar x y ch set =>
    .operation [0x0A, lowByte x, highByte x, lowByte y, highByte y, ch, flagBit 0 set]
  | .drawText x y set text =>
    .operation (0x0B :: lowByte x :: highByte x :: lowByte y :: highByte y :: flagBit 0 set ::
      BitVec.ofNat 8 text.length :: text)
  | .cmdMemoryMode a1 => .command (.cmd1 0x20 a1)
  | .cmdColumnAddr a1 a2 => .command (.cmd2 0x21 a1 a2)
  | .cmdPageAddr a1 a2 => .command (.cmd2 0x22 a1 a2)
  | .cmdSetStartLine => .command (.cmd0 0x40)
  | .cmdSetContrast a1 => .command (.cmd1 0x81 a1)
  | .cmdChargePump a1 => .command (.cmd1 0x8D a1)
  | .cmdSegRemap => .command (.cmd0 0xA1)
  | .cmdDisplayAllOn => .command (.cmd0 0xA4)
  | .cmdNormalDisplay => .command (.cmd0 0xA6)
  | .cmdInvertDisplay => .command (.cmd0 0xA7)
  | .cmdSetMultiplex a1 => .command (.cmd1 0xA8 a1)
  | .cmdDisplayOff => .command (.cmd0 0xAE)
  | .cmdDisplayOn => .command (.cmd0 0xAF)
  | .cmdComScanDec => .command (.cmd0 0xC8)
  | .cmdSetDisplayOffset a1 => .command (.cmd1 0xD3 a1)
  | .cmdSetDisplayClockDiv a1 => .command (.cmd1 0xD5 a1)
  | .cmdSetPrecharge a1 => .command (.cmd1 0xD9 a1)
  | .cmdSetComPins a1 => .command (.cmd1 0xDA a1)
  | .cmdSetVcomDetect a1 => .command (.cmd1 0xDB a1)
  | .cmdData => .command .data

/-! ### Words numbered as spec/opcode_table.json numbers them -/

/-- The bytes of a table word, the first byte in bits 7 to 0. -/
def bytesOfWord (nbits w : Nat) : List Byte :=
  (List.range ((nbits + 7) / 8)).map fun k => BitVec.ofNat 8 (w >>> (8 * k))

/-- `bs` with zero bytes after it, up to `n` bytes. -/
def padTo (n : Nat) (bs : List Byte) : List Byte := bs ++ List.replicate (n - bs.length) 0

/-- The length in bytes of the descriptor that begins with `bs` (30_encoding.md R80, R93); byte 6 counts as 0 where absent. -/
def descriptorLength (bs : List Byte) : Nat :=
  match (bs.getD 0 0).toNat with
  | 0x00 => 5
  | 0x01 => 1
  | 0x02 => 1
  | 0x03 => 1
  | 0x04 => 2
  | 0x05 => 2
  | 0x06 => 5
  | 0x07 => 5
  | 0x08 => 10
  | 0x09 => 10
  | 0x0A => 7
  | 0x0B => 7 + (bs.getD 6 0).toNat
  | _ => 1

/-- The command word whose payload bytes are `bs`, absent argument bytes being 0; the arity is the one of R100. Byte 0x40 is read
as the command SETSTARTLINE: the table gives the same eight bits to CMD.DATA, whose 0x40 is a control byte and not a
command's payload byte (DESIGN CHOICE, log 9). -/
def commandOfBytes : List Byte → Option CmdWord
  | [] => none
  | op :: args =>
    if (decodeCmd0 op).isSome && args.isEmpty then some (.cmd0 op)
    else if (decodeCmd1 op 0).isSome && decide (args.length ≤ 1) then some (.cmd1 op (args.getD 0 0))
    else if (decodeCmd2 op 0 0).isSome && decide (args.length ≤ 2) then some (.cmd2 op (args.getD 0 0) (args.getD 1 0))
    else none

/-- The encoded word a table word stands for: bytes 0x00 to 0x0B begin a descriptor, every other one a device command. -/
def tableCode (nbits w : Nat) : Option Code :=
  let bs := bytesOfWord nbits w
  if (bs.getD 0 0xFF).toNat ≤ 0x0B then some (.operation (padTo (descriptorLength bs) bs))
  else (commandOfBytes bs).map Code.command

/-- The instruction the decoder reads from a table word; bits above `nbits` are 0. -/
def decodeTableWord (nbits w : Nat) : Option Instr :=
  match tableCode nbits w with
  | none => none
  | some c =>
    match decode c with
    | .ok i => some i
    | .error _ => none

end Sys2Proof
end

