-- ==== Sys2Proof/Machine/State.lean ====
section
/-! DEFINITION. The state of the display block and of the two agents around it, the reasons a step can stop, and the state after
reset. The complete state the spec gives is `(STATE, cfg, FB)` and the history `OUT` (10_state.md); the fields below the line
are the model's own. -/

namespace Sys2Proof.Machine

/-- The controller state register `STATE` (10_state.md R21). -/
inductive CtrlState where
  | uninitialized
  | initializing
  | ready
  deriving DecidableEq, Repr

/-- The two-bit code of `STATE` (R21); code 3 is never taken. -/
def CtrlState.code : CtrlState → BitVec 2
  | .uninitialized => 0
  | .initializing => 1
  | .ready => 2

/-- The configuration registers `cfg` (10_state.md R22). -/
structure Cfg where
  width : Byte
  height : Byte
  pages : BitVec 5
  addr : BitVec 7
  extVcc : Bool
  deriving DecidableEq, Repr

/-- A transaction `TX(addr, bytes)` (00_scope.md R13). -/
structure Transaction where
  addr : BitVec 7
  bytes : List Byte
  deriving DecidableEq, Repr

/-- The transport's answer to one transaction (10_state.md R40, 44_controller.md R200): a byte count, a failure indication, or no
answer ever (70_reset_and_hazards.md R292). -/
inductive TransportAnswer where
  | written (count : Nat)
  | failed
  | never
  deriving DecidableEq, Repr

/-- What the host does next (60_exceptions.md R266): present an operation descriptor, or assert hardware reset. -/
inductive HostEvent where
  | operation (descriptor : List Byte)
  | reset
  deriving DecidableEq, Repr

/-- The framebuffer RAM as data: the bytes written since the last draw, as (index, byte) cells. An index that is not listed holds no
stored value: it reads as the free value of Config (log 3). -/
abbrev Memory := List Host.Cell

/-- The canonical form: indices strictly rising. No cell can equal what an unlisted index reads as here, since an unlisted
index has no stored value; so equal memories are equal lists. -/
abbrev Memory.wf (m : Memory) : Prop := m.Pairwise fun c d => c.1 < d.1

/-- The state of the model. -/
structure State where
  /-- `STATE` (10_state.md R21). -/
  ctrl : CtrlState
  /-- `cfg` (10_state.md R22). -/
  cfg : Cfg
  /-- `FB` (10_state.md R30). -/
  fb : Memory
  /-- `OUT` (10_state.md R41), oldest transaction first. -/
  out : List Transaction
  /-- The transport port: `true` while a transaction is in flight that the transport never answers (70_reset_and_hazards.md R292). -/
  blocked : Bool
  /-- The commands of the running operation that are not completed yet, the one in progress first (10_state.md R20, R24; log 7). -/
  sequencer : List CmdWord
  /-- The model's own: what the host will still do, in order (log 1). -/
  host : List HostEvent
  /-- The model's own: the transport's answers to the next transactions; one beyond the list is answered (log 6). -/
  transport : List TransportAnswer
  /-- The model's own: the causes of the operations refused so far, oldest first (60_exceptions.md R252; log 2). -/
  refusals : List RefusalCause
  /-- The model's own: the number of the current draw of free values (log 3). -/
  draw : Nat
  deriving DecidableEq, Repr

/-- Why the machine stops for good. The block has no exceptions (60_exceptions.md R250); its one stuck state is here. -/
inductive Fault where
  /-- Raised by `step` while a transaction is in flight that the transport never answers and the host's next event is not a hardware
  reset: the operation never completes and the port never accepts another (70_reset_and_hazards.md R292, 93 U7 "stuck"). Safe. -/
  | transportNeverAnswers
  deriving DecidableEq, Repr

/-- Why a step has no meaning. -/
inductive Refusal where
  /-- An instruction without a meaning yet, by its mnemonic; raised by `exec` only. Safe. No arm of `exec` raises it. -/
  | notModelled (mnemonic : String)
  /-- Raised by `step` when the sequencer holds a word that is none of the nineteen commands with their arities. The block never
  emits one (30_encoding.md R103), so no run from reset gets here. Safe (log 20). -/
  | unknownCommand
  deriving DecidableEq, Repr

/-- What the block finds to do next (read by `step`). -/
inductive Fetched where
  /-- The transport never answers and no reset comes. -/
  | stuck
  /-- Nothing is running and the host presents nothing. -/
  | idle
  /-- The host asserts reset; the event is taken off `host`. -/
  | reset (s : State)
  /-- The host presents a descriptor the decoder accepts; the event is taken off `host`. -/
  | operation (i : Instr) (s : State)
  /-- The host presents a descriptor the decoder refuses; the event is taken off `host`. -/
  | rejected (cause : RefusalCause) (s : State)
  /-- The sequencer's next command, and the commands after it. -/
  | command (i : Instr) (rest : List CmdWord)
  /-- The sequencer's next word is no command. -/
  | unknown
  deriving DecidableEq, Repr

/-- The state right after hardware reset at the beginning of a run (10_state.md R45): Uninitialized, nothing written to the
framebuffer, OUT empty, the transport port idle. The values of `cfg` are a DESIGN CHOICE (log 4, unsafe): the spec gives none.
`sequencer`, `host`, `transport`, `refusals` and `draw` start empty or 0 (DESIGN CHOICE, log 1, 2, 3, 6, 7). -/
def State.reset : State where
  ctrl := .uninitialized
  cfg := ⟨0, 0, 0, 0, false⟩
  fb := []
  out := []
  blocked := false
  sequencer := []
  host := []
  transport := []
  refusals := []
  draw := 0

end Sys2Proof.Machine
end

