-- ==== Sys2Proof/Machine/Flags.lean ====
section
/-! DEFINITION. What the one-bit operands select. The block has no flags or condition codes of its own (10_state.md R25). -/

namespace Sys2Proof.Machine

/-- The `set` flag (30_encoding.md R91, 40_framebuffer.md R122): the byte with the masked bit forced to 1 or to 0
(R120, R121). -/
def applyMask (set : Bool) (mask old : Byte) : Byte := if set then old ||| mask else old &&& ~~~mask

/-- `extVcc` selects CHARGEPUMP's argument (44_controller.md R205 step 6). -/
def chargepumpArg (extVcc : Bool) : Byte := if extVcc then Config.chargepumpExt else Config.chargepumpInt

/-- `extVcc` selects SETPRECHARGE's argument (44_controller.md R205 step 12). -/
def prechargeArg (extVcc : Bool) : Byte := if extVcc then Config.prechargeExt else Config.prechargeInt

/-- HEIGHT = 64 selects SETCOMPINS's argument (44_controller.md R205 step 10). -/
def compinsArg (height : Byte) : Byte := if height = 64 then Config.compins64 else Config.compinsOther

/-- `invert` selects INVERTDISPLAY or NORMALDISPLAY (44_controller.md R212). -/
def displayModeOp (invert : Bool) : Byte := if invert then 0xA7 else 0xA6

end Sys2Proof.Machine
end

