-- ==== Sys2Proof/Machine/Operands.lean ====
section
/-! DEFINITION. Operand forms: coordinates, the pixel address, sizes that follow from `cfg`, the glyph index. -/

namespace Sys2Proof.Machine

/-- The integer a coordinate operand stands for (`sext_16`, 00_scope.md R11, R14). -/
def coord (v : S16) : Int := v.toInt

/-- A point of the coordinate plane. -/
abbrev Point := Int × Int

/-- The pair is in bounds (00_scope.md R11). -/
def inBounds (cfg : Cfg) (x y : Int) : Bool :=
  decide (0 ≤ x) && decide (x < cfg.width.toNat) && decide (0 ≤ y) && decide (y < cfg.height.toNat)

/-- The framebuffer index of an in-bounds pair, `1 + WIDTH * (y >> 3) + x` (20_memory.md R52). -/
def pixelIndex (cfg : Cfg) (x y : Int) : Nat := 1 + cfg.width.toNat * (y.toNat >>> 3) + x.toNat

/-- The bit of the pixel in its byte, `y & 7`, bit 0 the topmost row of the page (20_memory.md R52, R53). -/
def pixelBit (y : Int) : Nat := y.toNat &&& 7

/-- The mask of the pixel in its byte (20_memory.md R52). -/
def pixelMask (y : Int) : Byte := (1 : Byte) <<< pixelBit y

/-- `FB_LEN = WIDTH * PAGES + 1` (20_memory.md R50). -/
def fbLen (cfg : Cfg) : Nat := cfg.width.toNat * cfg.pages.toNat + 1

/-- The configuration CONSTRUCT writes from its operands; `PAGES = HEIGHT / 8` (44_controller.md R205, 10_state.md R22). -/
def cfgOf (width height : Byte) (address : BitVec 7) (extVcc : Bool) : Cfg :=
  ⟨width, height, BitVec.ofNat 5 (height.toNat / 8), address, extVcc⟩

/-- `PAGES - 1` as the argument byte of PAGEADDR (30_encoding.md R100). -/
def lastPage (cfg : Cfg) : Byte := cfg.pages.setWidth 8 - 1

/-- `WIDTH - 1` as the argument byte of COLUMNADDR (30_encoding.md R100). -/
def lastColumn (cfg : Cfg) : Byte := cfg.width - 1

/-- The entry of the Glyph ROM for a character code (43_glyph_text.md R180). -/
def glyphIndex (ch : Byte) : Nat := if 0x20 ≤ ch.toNat ∧ ch.toNat ≤ 0x7E then ch.toNat - 0x20 else 95

/-- The column patterns of a character's glyph (43_glyph_text.md R180). -/
def glyph (ch : Byte) (c : Nat) : BitVec 7 := Config.glyphRom (glyphIndex ch) c

end Sys2Proof.Machine
end

