-- ==== Sys2Proof/Machine/Ops.lean ====
section
/-! DEFINITION. The named operations over memory, the transport and the operation port. The block has no exceptions and no trap
(60_exceptions.md R250, R257): the one thing that happens instead of an operation's effect is the refusal, `refuse`. -/

namespace Sys2Proof.Machine

/-! ### Framebuffer RAM -/

/-- The stored byte at index `i`, if it has been written since the last draw. -/
def memRead : Memory → Nat → Option Byte
  | [], _ => none
  | (a, v) :: rest, i => if a = i then some v else memRead rest i

/-- Store byte `v` at index `i`, keeping the indices rising. -/
def memWrite : Memory → Nat → Byte → Memory
  | [], i, v => [(i, v)]
  | (a, w) :: rest, i, v =>
    if i < a then (i, v) :: (a, w) :: rest
    else if i = a then (i, v) :: rest
    else (a, w) :: memWrite rest i v

/-- `FB[i]` (00_scope.md R14): an unwritten byte is the current draw's free value (10_state.md R46; log 3). -/
def fbRead (s : State) (i : Nat) : Byte := (memRead s.fb i).getD (Config.freeFb s.draw i)

/-- `FB[i] <- v` (00_scope.md R14). -/
def fbWrite (i : Nat) (v : Byte) (s : State) : State := { s with fb := memWrite s.fb i v }

/-- All bytes in use, `FB[0]` to `FB[FB_LEN - 1]`, in index order (20_memory.md R54). -/
def fbBytes (s : State) : List Byte := (List.range (fbLen s.cfg)).map (fbRead s)

/-- `pixel(x, y)` (10_state.md R48): an observation of the state, not an operation. -/
def pixel (s : State) (x y : Int) : Bool := (fbRead s (pixelIndex s.cfg x y)).getLsbD (pixelBit y)

/-- `plot(x, y, set)` (40_framebuffer.md R122): `setPixel` (R120) or `clearPixel` (R121); nothing for a pair out of bounds. -/
def plot (set : Bool) (x y : Int) (s : State) : State :=
  if inBounds s.cfg x y then
    fbWrite (pixelIndex s.cfg x y) (applyMask set (pixelMask y) (fbRead s (pixelIndex s.cfg x y))) s
  else s

/-- Plot the points of a list in order. The drawing engines compute their points from their operands alone (20_memory.md R60) and
touch the framebuffer only here (R57). -/
def plotAll (set : Bool) (points : List Point) (s : State) : State :=
  points.foldl (fun s p => plot set p.1 p.2 s) s

/-- `clearAll()` (40_framebuffer.md R125). -/
def clearAll (s : State) : State := (List.range (fbLen s.cfg)).foldl (fun s i => fbWrite i 0x00 s) s

/-! ### Transport -/

/-- `emit TX(ADDR, bytes)` (44_controller.md R200): append to OUT and wait for the answer, which is discarded. Without an answer the
block waits for ever: `blocked`, and every later step of the operation is not reached (70_reset_and_hazards.md R292). -/
def emit (bytes : List Byte) (s : State) : State :=
  if s.blocked then s
  else
    { s with
      out := s.out ++ [⟨s.cfg.addr, bytes⟩]
      blocked := decide (s.transport.head? = some .never)
      transport := s.transport.tail }

/-- `command0(op)` (44_controller.md R201). -/
def command0 (op : Byte) (s : State) : State := emit [Config.ctrlCmd, op] s

/-- `command1(op, a1)` (44_controller.md R201). -/
def command1 (op a1 : Byte) (s : State) : State := emit [Config.ctrlCmd, a1] (emit [Config.ctrlCmd, op] s)

/-- `command2(op, a1, a2)` (44_controller.md R201). -/
def command2 (op a1 a2 : Byte) (s : State) : State :=
  emit [Config.ctrlCmd, a2] (emit [Config.ctrlCmd, a1] (emit [Config.ctrlCmd, op] s))

/-- The data transfer (44_controller.md R210, 30_encoding.md R102): `FB[0] <- 0x40`, then the whole framebuffer as one transaction. -/
def dataTransfer (s : State) : State :=
  if s.blocked then s
  else emit (fbBytes (fbWrite 0 Config.ctrlData s)) (fbWrite 0 Config.ctrlData s)

/-- What the controller does for one command word (30_encoding.md R101, R102). -/
def performWord : CmdWord → State → State
  | .cmd0 op, s => command0 op s
  | .cmd1 op a1, s => command1 op a1 s
  | .cmd2 op a1 a2, s => command2 op a1 a2 s
  | .data, s => dataTransfer s

/-- After a command: unless the transport is still owing an answer, the sequencer moves on to the commands that remain; with the last
one answered an init sequence is complete and `STATE <- Ready` (44_controller.md R205, R215). -/
def advance (rest : List CmdWord) (s : State) : State :=
  if s.blocked then s
  else
    { s with
      sequencer := rest
      ctrl := if rest = [] ∧ s.ctrl = .initializing then .ready else s.ctrl }

/-- Run a sequence of commands to its end, or up to the transaction the transport never answers. -/
def runSequence : List CmdWord → State → State
  | [], s => s
  | w :: rest, s =>
    if s.blocked then s
    else runSequence rest (advance rest (performWord w { s with sequencer := w :: rest }))

/-! ### Operation port -/

/-- An operation is refused (60_exceptions.md R252): nothing of the block changes and the next operation follows; the model records
the cause, so that the refusal stays visible on the run (log 2). -/
def refuse (cause : RefusalCause) (s : State) : Host.Outcome State Fault Refusal :=
  .next { s with refusals := s.refusals ++ [cause] }

/-- Gating by STATE of every operation but CONSTRUCT (44_controller.md R214): executed when Ready, otherwise refused (RF5). -/
def whenReady (effect : State → State) (s : State) : Host.Outcome State Fault Refusal :=
  if s.ctrl = .ready then .next (effect s) else refuse .wrongState s

/-- `cfg <- unspecified ; FB <- unspecified` (10_state.md R45, R47): a new draw of free values (log 3, 5). -/
def forget (s : State) : State :=
  { s with
    cfg := ⟨Config.freeWidth (s.draw + 1), Config.freeHeight (s.draw + 1), Config.freePages (s.draw + 1),
      Config.freeAddr (s.draw + 1), Config.freeExtVcc (s.draw + 1)⟩
    fb := []
    draw := s.draw + 1 }

/-- Hardware reset (70_reset_and_hazards.md R280, R281, 10_state.md R45): Uninitialized, `cfg` and `FB` unspecified, the transport port
idle, a running operation abandoned. OUT is a history and keeps what was handed over; nothing is sent. -/
def hardwareReset (s : State) : State :=
  { forget s with ctrl := .uninitialized, blocked := false, sequencer := [] }

end Sys2Proof.Machine
end

