-- ==== Sys2Proof/Machine/Line.lean ====
section
/-! DEFINITION. The line rasterizer: DRAWLINE (41_line.md). -/

namespace Sys2Proof.Machine

/-- The loop of the `line` primitive (41_line.md R141) from the current point `(x, y)` with the error `err`: the point and the error
at the top of each iteration, in order. `e2 = 2 * err` is taken once, before either update; the exit test stands between the
plot and the updates. The first argument bounds the iterations; `lineTrace` gives exactly as many as the loop runs. -/
def lineLoop (x2 y2 dx dy sx sy : Int) : Nat → Int → Int → Int → List (Int × Int × Int)
  | 0, _, _, _ => []
  | n + 1, x, y, err =>
    (x, y, err) ::
      if x = x2 ∧ y = y2 then []
      else
        lineLoop x2 y2 dx dy sx sy n
          (if 2 * err ≥ dy then x + sx else x)
          (if 2 * err ≤ dx then y + sy else y)
          (err + (if 2 * err ≥ dy then dy else 0) + (if 2 * err ≤ dx then dx else 0))

/-- `dx = |x2 - x1|` (R141). -/
def lineDx (x1 x2 : Int) : Int := (x2 - x1).natAbs

/-- `dy = -|y2 - y1|` (R141). -/
def lineDy (y1 y2 : Int) : Int := -((y2 - y1).natAbs : Int)

/-- The step sign, -1 for equal coordinates (R141 (iii)). -/
def stepSign (a b : Int) : Int := if a < b then 1 else -1

/-- The iterations of `line(x1, y1, x2, y2, _)`: `max(dx, |dy|) + 1` of them (R142 (a); DEDUCED bound, log 13). -/
def lineTrace (x1 y1 x2 y2 : Int) : List (Int × Int × Int) :=
  lineLoop x2 y2 (lineDx x1 x2) (lineDy y1 y2) (stepSign x1 x2) (stepSign y1 y2)
    (max (x2 - x1).natAbs (y2 - y1).natAbs + 1) x1 y1 (lineDx x1 x2 + lineDy y1 y2)

/-- The points `line(x1, y1, x2, y2, _)` plots, in order (R141). -/
def linePoints (x1 y1 x2 y2 : Int) : List Point := (lineTrace x1 y1 x2 y2).map fun e => (e.1, e.2.1)

/-- DRAWLINE (41_line.md R140). -/
def execDrawLine (x1 y1 x2 y2 : S16) (set : Bool) (s : State) : Host.Outcome State Fault Refusal :=
  whenReady (plotAll set (linePoints (coord x1) (coord y1) (coord x2) (coord y2))) s

end Sys2Proof.Machine
end

