-- ==== Sys2Proof/Machine/Box.lean ====
section
/-! DEFINITION. The box sequencer: DRAWBOX (42_box.md). -/

namespace Sys2Proof.Machine

/-- The points of outline mode: top, bottom, left, right (42_box.md R162). -/
def outlinePoints (x y x2 y2 : Int) : List Point :=
  linePoints x y x2 y ++ linePoints x y2 x2 y2 ++ linePoints x y x y2 ++ linePoints x2 y x2 y2

/-- `h, h - 1, ..., 0`; empty for `h < 0` (42_box.md R163, 00_scope.md R14). -/
def rowsDown (h : Int) : List Int := (List.range (h + 1).toNat).reverse.map fun i : Nat => (i : Int)

/-- The points of filled mode: one horizontal line for each row, from row `y + h` to row `y` (42_box.md R163). -/
def filledPoints (x y x2 h : Int) : List Point := (rowsDown h).flatMap fun i => linePoints x (y + i) x2 (y + i)

/-- The effect of DRAWBOX when it is executed (42_box.md R160 to R163): the opposite corner is computed exactly, and filled mode always
sets. -/
def drawBoxEffect (x y w h : Int) (filled set : Bool) (s : State) : State :=
  if filled then plotAll true (filledPoints x y (x + w) h) s
  else plotAll set (outlinePoints x y (x + w) (y + h)) s

/-- DRAWBOX (42_box.md R160). -/
def execDrawBox (x y w h : S16) (filled set : Bool) (s : State) : Host.Outcome State Fault Refusal :=
  whenReady (drawBoxEffect (coord x) (coord y) (coord w) (coord h) filled set) s

end Sys2Proof.Machine
end

