-- ==== Sys2Proof/Machine/Commands.lean ====
section
/-! DEFINITION. The device commands and the data transfer, as the controller performs them (30_encoding.md R100 to R102,
44_controller.md R201). A command has no precondition on STATE of its own: the operations that send it have (log 19). -/

namespace Sys2Proof.Machine

/-- CMD.MEMORYMODE, format CMD1 (30_encoding.md R100, R101). -/
def execCmdMemoryMode (a1 : Byte) (s : State) : Host.Outcome State Fault Refusal :=
  .next (command1 0x20 a1 s)

/-- CMD.COLUMNADDR, format CMD2 (30_encoding.md R100, R101). -/
def execCmdColumnAddr (a1 a2 : Byte) (s : State) : Host.Outcome State Fault Refusal :=
  .next (command2 0x21 a1 a2 s)

/-- CMD.PAGEADDR, format CMD2 (30_encoding.md R100, R101). -/
def execCmdPageAddr (a1 a2 : Byte) (s : State) : Host.Outcome State Fault Refusal :=
  .next (command2 0x22 a1 a2 s)

/-- CMD.SETSTARTLINE, format CMD0 (30_encoding.md R100, R101). -/
def execCmdSetStartLine (s : State) : Host.Outcome State Fault Refusal :=
  .next (command0 0x40 s)

/-- CMD.SETCONTRAST, format CMD1 (30_encoding.md R100, R101). -/
def execCmdSetContrast (a1 : Byte) (s : State) : Host.Outcome State Fault Refusal :=
  .next (command1 0x81 a1 s)

/-- CMD.CHARGEPUMP, format CMD1 (30_encoding.md R100, R101). -/
def execCmdChargePump (a1 : Byte) (s : State) : Host.Outcome State Fault Refusal :=
  .next (command1 0x8D a1 s)

/-- CMD.SEGREMAP, format CMD0 (30_encoding.md R100, R101). -/
def execCmdSegRemap (s : State) : Host.Outcome State Fault Refusal :=
  .next (command0 0xA1 s)

/-- CMD.DISPLAYALLON, format CMD0 (30_encoding.md R100, R101). -/
def execCmdDisplayAllOn (s : State) : Host.Outcome State Fault Refusal :=
  .next (command0 0xA4 s)

/-- CMD.NORMALDISPLAY, format CMD0 (30_encoding.md R100, R101). -/
def execCmdNormalDisplay (s : State) : Host.Outcome State Fault Refusal :=
  .next (command0 0xA6 s)

/-- CMD.INVERTDISPLAY, format CMD0 (30_encoding.md R100, R101). -/
def execCmdInvertDisplay (s : State) : Host.Outcome State Fault Refusal :=
  .next (command0 0xA7 s)

/-- CMD.SETMULTIPLEX, format CMD1 (30_encoding.md R100, R101). -/
def execCmdSetMultiplex (a1 : Byte) (s : State) : Host.Outcome State Fault Refusal :=
  .next (command1 0xA8 a1 s)

/-- CMD.DISPLAYOFF, format CMD0 (30_encoding.md R100, R101). -/
def execCmdDisplayOff (s : State) : Host.Outcome State Fault Refusal :=
  .next (command0 0xAE s)

/-- CMD.DISPLAYON, format CMD0 (30_encoding.md R100, R101). -/
def execCmdDisplayOn (s : State) : Host.Outcome State Fault Refusal :=
  .next (command0 0xAF s)

/-- CMD.COMSCANDEC, format CMD0 (30_encoding.md R100, R101). -/
def execCmdComScanDec (s : State) : Host.Outcome State Fault Refusal :=
  .next (command0 0xC8 s)

/-- CMD.SETDISPLAYOFFSET, format CMD1 (30_encoding.md R100, R101). -/
def execCmdSetDisplayOffset (a1 : Byte) (s : State) : Host.Outcome State Fault Refusal :=
  .next (command1 0xD3 a1 s)

/-- CMD.SETDISPLAYCLOCKDIV, format CMD1 (30_encoding.md R100, R101). -/
def execCmdSetDisplayClockDiv (a1 : Byte) (s : State) : Host.Outcome State Fault Refusal :=
  .next (command1 0xD5 a1 s)

/-- CMD.SETPRECHARGE, format CMD1 (30_encoding.md R100, R101). -/
def execCmdSetPrecharge (a1 : Byte) (s : State) : Host.Outcome State Fault Refusal :=
  .next (command1 0xD9 a1 s)

/-- CMD.SETCOMPINS, format CMD1 (30_encoding.md R100, R101). -/
def execCmdSetComPins (a1 : Byte) (s : State) : Host.Outcome State Fault Refusal :=
  .next (command1 0xDA a1 s)

/-- CMD.SETVCOMDETECT, format CMD1 (30_encoding.md R100, R101). -/
def execCmdSetVcomDetect (a1 : Byte) (s : State) : Host.Outcome State Fault Refusal :=
  .next (command1 0xDB a1 s)

/-- CMD.DATA (30_encoding.md R102, 44_controller.md R210). -/
def execCmdData (s : State) : Host.Outcome State Fault Refusal := .next (dataTransfer s)

end Sys2Proof.Machine
end

