-- ==== Sys2Proof/Machine/Controller.lean ====
section
/-! DEFINITION. The display-controller FSM: CONSTRUCT, DESTROY, RENDER, SETCONTRAST, SETINVERT (44_controller.md). -/

namespace Sys2Proof.Machine

/-- The init sequence, steps 1 to 16 (44_controller.md R205). -/
def initSequence (height : Byte) (extVcc : Bool) : List CmdWord :=
  [ .cmd0 0xAE                            -- 1 DISPLAYOFF
  , .cmd1 0xD5 Config.clkdivArg           -- 2 SETDISPLAYCLOCKDIV
  , .cmd1 0xA8 (height - 1)               -- 3 SETMULTIPLEX
  , .cmd1 0xD3 0x00                       -- 4 SETDISPLAYOFFSET
  , .cmd0 0x40                            -- 5 SETSTARTLINE
  , .cmd1 0x8D (chargepumpArg extVcc)     -- 6 CHARGEPUMP
  , .cmd1 0x20 Config.memmodePage         -- 7 MEMORYMODE
  , .cmd0 0xA1                            -- 8 SEGREMAP
  , .cmd0 0xC8                            -- 9 COMSCANDEC
  , .cmd1 0xDA (compinsArg height)        -- 10 SETCOMPINS
  , .cmd1 0x81 0xFF                       -- 11 SETCONTRAST
  , .cmd1 0xD9 (prechargeArg extVcc)      -- 12 SETPRECHARGE
  , .cmd1 0xDB Config.vcomdetectArg       -- 13 SETVCOMDETECT
  , .cmd0 0xA4                            -- 14 DISPLAYALLON
  , .cmd0 0xA6                            -- 15 NORMALDISPLAY
  , .cmd0 0xAF ]                          -- 16 DISPLAYON

/-- RENDER's three command words (44_controller.md R210). -/
def renderSequence (cfg : Cfg) : List CmdWord :=
  [.cmd2 0x22 0x00 (lastPage cfg), .cmd2 0x21 0x00 (lastColumn cfg), .data]

/-- CONSTRUCT accepted, before the init sequence: `STATE <- Initializing`, `cfg` from the operands, `FB` unspecified
(44_controller.md R205, 10_state.md R46; a new draw, log 3, 14). -/
def beginConstruct (width height : Byte) (address : BitVec 7) (extVcc : Bool) (s : State) : State :=
  { s with ctrl := .initializing, cfg := cfgOf width height address extVcc, fb := [], draw := s.draw + 1 }

/-- CONSTRUCT (44_controller.md R205): gated by STATE first, then by its operand ranges (60_exceptions.md R256). -/
def execConstruct (width height : Byte) (address : BitVec 7) (extVcc : Bool) (s : State) :
    Host.Outcome State Fault Refusal :=
  if s.ctrl ≠ .uninitialized then refuse .wrongState s
  else if geometryOk width height then
    .next (runSequence (initSequence height extVcc) (beginConstruct width height address extVcc s))
  else refuse .badGeometry s

/-- DESTROY (44_controller.md R213): nothing is emitted. -/
def execDestroy (s : State) : Host.Outcome State Fault Refusal :=
  whenReady (fun s => { forget s with ctrl := .uninitialized }) s

/-- RENDER (44_controller.md R210). -/
def execRender (s : State) : Host.Outcome State Fault Refusal :=
  whenReady (fun s => runSequence (renderSequence s.cfg) s) s

/-- SETCONTRAST (44_controller.md R211). -/
def execSetContrast (level : Byte) (s : State) : Host.Outcome State Fault Refusal :=
  whenReady (runSequence [.cmd1 0x81 level]) s

/-- SETINVERT (44_controller.md R212). -/
def execSetInvert (invert : Bool) (s : State) : Host.Outcome State Fault Refusal :=
  whenReady (runSequence [.cmd0 (displayModeOp invert)]) s

end Sys2Proof.Machine
end

