-- ==== Sys2Proof/Machine/Framebuffer.lean ====
section
/-! DEFINITION. The framebuffer operations: SETPIXEL, CLEARPIXEL, CLEAR (40_framebuffer.md). -/

namespace Sys2Proof.Machine

/-- SETPIXEL (40_framebuffer.md R123). -/
def execSetPixel (x y : S16) (s : State) : Host.Outcome State Fault Refusal :=
  whenReady (plot true (coord x) (coord y)) s

/-- CLEARPIXEL (40_framebuffer.md R124). -/
def execClearPixel (x y : S16) (s : State) : Host.Outcome State Fault Refusal :=
  whenReady (plot false (coord x) (coord y)) s

/-- CLEAR (40_framebuffer.md R126). -/
def execClear (s : State) : Host.Outcome State Fault Refusal := whenReady clearAll s

end Sys2Proof.Machine
end

