-- ==== Sys2Proof/Machine/Glyph.lean ====
section
/-! DEFINITION. The glyph renderer and the text sequencer: DRAWCHAR, DRAWTEXT (43_glyph_text.md). -/

namespace Sys2Proof.Machine

/-- The points `glyphCell(x, y, _, _)` plots for the column patterns `g`: column-major, row `r` tested against bit `6 - r`, 1 bits
only (43_glyph_text.md R182). -/
def glyphPoints (g : Nat → BitVec 7) (x y : Int) : List Point :=
  (List.range 5).flatMap fun c =>
    (List.range 7).filterMap fun r => if (g c).getLsbD (6 - r) then some (x + c, y + r) else none

/-- The points of a text (43_glyph_text.md R185): the cell of character `k` at `x + 6 * k`, exactly. -/
def textPoints (x y : Int) : List Byte → List Point
  | [] => []
  | ch :: rest => glyphPoints (glyph ch) x y ++ textPoints (x + Config.textAdvance) y rest

/-- DRAWCHAR (43_glyph_text.md R181). -/
def execDrawChar (x y : S16) (ch : Byte) (set : Bool) (s : State) : Host.Outcome State Fault Refusal :=
  whenReady (plotAll set (glyphPoints (glyph ch) (coord x) (coord y))) s

/-- DRAWTEXT (43_glyph_text.md R185). -/
def execDrawText (x y : S16) (set : Bool) (text : List Byte) (s : State) : Host.Outcome State Fault Refusal :=
  whenReady (plotAll set (textPoints (coord x) (coord y) text)) s

end Sys2Proof.Machine
end

