-- ==== Sys2Proof/Machine/Dispatch.lean ====
section
/-! DEFINITION. The dispatch of every instruction to its meaning. -/

namespace Sys2Proof.Machine

/-- The meaning of an instruction in a state. -/
def exec (i : Instr) (s : State) : Host.Outcome State Fault Refusal :=
  match i with
  | .construct w h a e => Sys2Proof.Machine.execConstruct w h a e s
  | .destroy => Sys2Proof.Machine.execDestroy s
  | .clear => Sys2Proof.Machine.execClear s
  | .render => Sys2Proof.Machine.execRender s
  | .setContrast level => Sys2Proof.Machine.execSetContrast level s
  | .setInvert b => Sys2Proof.Machine.execSetInvert b s
  | .setPixel x y => Sys2Proof.Machine.execSetPixel x y s
  | .clearPixel x y => Sys2Proof.Machine.execClearPixel x y s
  | .drawLine x1 y1 x2 y2 f => Sys2Proof.Machine.execDrawLine x1 y1 x2 y2 f s
  | .drawBox x y w h p f => Sys2Proof.Machine.execDrawBox x y w h p f s
  | .drawChar x y ch f => Sys2Proof.Machine.execDrawChar x y ch f s
  | .drawText x y f t => Sys2Proof.Machine.execDrawText x y f t s
  | .cmdMemoryMode a1 => Sys2Proof.Machine.execCmdMemoryMode a1 s
  | .cmdColumnAddr a1 a2 => Sys2Proof.Machine.execCmdColumnAddr a1 a2 s
  | .cmdPageAddr a1 a2 => Sys2Proof.Machine.execCmdPageAddr a1 a2 s
  | .cmdSetStartLine => Sys2Proof.Machine.execCmdSetStartLine s
  | .cmdSetContrast a1 => Sys2Proof.Machine.execCmdSetContrast a1 s
  | .cmdChargePump a1 => Sys2Proof.Machine.execCmdChargePump a1 s
  | .cmdSegRemap => Sys2Proof.Machine.execCmdSegRemap s
  | .cmdDisplayAllOn => Sys2Proof.Machine.execCmdDisplayAllOn s
  | .cmdNormalDisplay => Sys2Proof.Machine.execCmdNormalDisplay s
  | .cmdInvertDisplay => Sys2Proof.Machine.execCmdInvertDisplay s
  | .cmdSetMultiplex a1 => Sys2Proof.Machine.execCmdSetMultiplex a1 s
  | .cmdDisplayOff => Sys2Proof.Machine.execCmdDisplayOff s
  | .cmdDisplayOn => Sys2Proof.Machine.execCmdDisplayOn s
  | .cmdComScanDec => Sys2Proof.Machine.execCmdComScanDec s
  | .cmdSetDisplayOffset a1 => Sys2Proof.Machine.execCmdSetDisplayOffset a1 s
  | .cmdSetDisplayClockDiv a1 => Sys2Proof.Machine.execCmdSetDisplayClockDiv a1 s
  | .cmdSetPrecharge a1 => Sys2Proof.Machine.execCmdSetPrecharge a1 s
  | .cmdSetComPins a1 => Sys2Proof.Machine.execCmdSetComPins a1 s
  | .cmdSetVcomDetect a1 => Sys2Proof.Machine.execCmdSetVcomDetect a1 s
  | .cmdData => Sys2Proof.Machine.execCmdData s

end Sys2Proof.Machine
end

