-- ==== Sys2Proof/Machine/Fetch.lean ====
section
/-! DEFINITION. What the block does next, and where an instruction is placed so that it is next. -/

namespace Sys2Proof.Machine

/-- What the block finds to do next. A block waiting for an answer that never comes leaves that state by hardware reset only
(70_reset_and_hazards.md R292); a running sequence of commands goes on before the next operation is accepted (10_state.md R42);
otherwise the host's next event is taken, and without one the block does nothing (00_scope.md R5; DEDUCED, log 17). -/
def fetch (s : State) : Fetched :=
  if s.blocked then
    match s.host with
    | .reset :: rest => .reset { s with host := rest }
    | _ => .stuck
  else
    match s.sequencer with
    | w :: rest =>
      match decodeCommand w with
      | some i => .command i rest
      | none => .unknown
    | [] =>
      match s.host with
      | [] => .idle
      | .reset :: rest => .reset { s with host := rest }
      | .operation d :: rest =>
        match decodeDescriptor d with
        | .ok i => .operation i { s with host := rest }
        | .error c => .rejected c { s with host := rest }

/-- After a command of the sequencer has been performed, the sequencer advances. -/
def afterCommand (rest : List CmdWord) : Host.Outcome State Fault Refusal → Host.Outcome State Fault Refusal
  | .next s => .next (advance rest s)
  | .fault r => .fault r
  | .refused r => .refused r

/-- Place an encoded instruction where the next fetch finds it: a descriptor as the host's next event with no command running, a
command as the sequencer's next word; the transport port idle in both cases (log 1, 9). -/
def place (c : Code) (s : State) : State :=
  match c with
  | .operation d => { s with blocked := false, sequencer := [], host := .operation d :: s.host }
  | .command w => { s with blocked := false, sequencer := w :: s.sequencer }

end Sys2Proof.Machine
end

