-- ==== Sys2Proof/Machine/Step.lean ====
section
/-! DEFINITION. One step of the block: one host event taken and done to its end, or one command of a sequence that is still
running. -/

namespace Sys2Proof.Machine

/-- One step. -/
def step (s : State) : Host.Outcome State Fault Refusal :=
  match fetch s with
  | .stuck => .fault .transportNeverAnswers
  | .idle => .next s
  | .reset s' => .next (hardwareReset s')
  | .operation i s' => exec i s'
  | .rejected c s' => refuse c s'
  | .command i rest => afterCommand rest (exec i s)
  | .unknown => .refused .unknownCommand

/-- The state with a table word (spec/opcode_table.json) where `step` fetches its next instruction. -/
def State.withFetchWord (s : State) (nbits w : Nat) : State :=
  match tableCode nbits w with
  | some c => place c s
  | none => s

end Sys2Proof.Machine
end

