-- ==== Sys2Proof/Safety.lean ====
section
/-! DEFINITION. The terms the claims are written in: fairness of the transport, the frames, the picture a list of points draws, the
invariant of the machine, what the device was last sent. -/

namespace Sys2Proof

open Machine

/-- The fairness premise of 70_reset_and_hazards.md R292: the transport answers every transaction, with a count or a failure. -/
abbrev Answers (s : State) : Prop := ∀ a ∈ s.transport, a ≠ .never

/-- Nothing but the framebuffer differs. -/
abbrev OnlyFb (s t : State) : Prop := t = { s with fb := t.fb }

/-- An operation was refused for a wrong STATE and left everything of the block as it was (44_controller.md R214,
60_exceptions.md R252); only the record of refusals grew, which is the model's own (DESIGN CHOICE, log 2). -/
abbrev RefusedWrongState (i : Instr) (s : State) : Prop :=
  exec i s = .next { s with refusals := s.refusals ++ [.wrongState] }

/-- `t` is `s` with the in-bounds pixels of a set of points set or cleared and nothing else changed: every other in-bounds pixel, and
every byte that holds no pixel of the set (the control byte among them), is as before (41_line.md R142 (g), 40_framebuffer.md
R127 (c)). -/
def Draws (points : Int → Int → Prop) (set : Bool) (s t : State) : Prop :=
  OnlyFb s t ∧
  (∀ x y, inBounds s.cfg x y = true →
    (points x y → pixel t x y = set) ∧ (¬ points x y → pixel t x y = pixel s x y)) ∧
  (∀ a, (∀ x y, inBounds s.cfg x y = true → points x y → pixelIndex s.cfg x y ≠ a) → fbRead t a = fbRead s a)

/-- `v` lies between `a` and `b`, in either order, both included. -/
abbrev Between (a b v : Int) : Prop := min a b ≤ v ∧ v ≤ max a b

/-- The perimeter of the rectangle spanned by `(x, y)` and `(x2, y2)` (42_box.md R162, R164 (f)). -/
def OnPerimeter (x y x2 y2 px py : Int) : Prop :=
  ((py = y ∨ py = y2) ∧ Between x x2 px) ∨ ((px = x ∨ px = x2) ∧ Between y y2 py)

/-- The 1 bits of a character's glyph in the cell at `(x, y)` (43_glyph_text.md R180, R182, R183). -/
def InGlyph (ch : Byte) (x y px py : Int) : Prop :=
  ∃ c r : Nat, c < 5 ∧ r < 7 ∧ px = x + c ∧ py = y + r ∧
    (Config.glyphRom (if 0x20 ≤ ch.toNat ∧ ch.toNat ≤ 0x7E then ch.toNat - 0x20 else 95) c).getLsbD (6 - r) = true

/-- The points of a text: character `k` in the cell at `(x + 6 * k, y)` (43_glyph_text.md R185). -/
def InText (text : List Byte) (x y px py : Int) : Prop :=
  ∃ (k : Nat) (ch : Byte), text[k]? = some ch ∧ InGlyph ch (x + 6 * k) y px py

/-- `OUT` grew by transactions to the current address carrying these byte sequences. -/
def sent (s : State) (bytes : List (List Byte)) : List Transaction :=
  s.out ++ bytes.map fun b => ⟨s.cfg.addr, b⟩

/-- The instruction's whole effect is to emit these byte sequences, each in a transaction of its own to the current address. -/
abbrev Emits (i : Instr) (s : State) (bytes : List (List Byte)) : Prop :=
  exec i s = .next { s with out := sent s bytes, transport := s.transport.drop bytes.length }

/-- The byte sequences of a command word (30_encoding.md R101); the data transfer of a framebuffer content (R102). -/
def wordBytes (frame : List Byte) : CmdWord → List (List Byte)
  | .cmd0 op => [[0x00, op]]
  | .cmd1 op a1 => [[0x00, op], [0x00, a1]]
  | .cmd2 op a1 a2 => [[0x00, op], [0x00, a1], [0x00, a2]]
  | .data => [frame]

/-- The pixel bytes `FB[1]` to `FB[FB_LEN - 1]` (20_memory.md R50). -/
def pixelBytes (s : State) : List Byte := (List.range (s.cfg.width.toNat * s.cfg.pages.toNat)).map fun k => fbRead s (k + 1)

/-- The pixel bytes of the last data transaction in `OUT`: what the screen shows (10_state.md R43 (a)). -/
def lastFrame (out : List Transaction) : Option (List Byte) :=
  (out.reverse.find? fun t => t.bytes.head? == some 0x40).map fun t => t.bytes.tail

/-- The operations of the host (30_encoding.md R80); the other instructions are the controller's commands. -/
def isOperation : Instr → Bool
  | .construct _ _ _ _ | .destroy | .clear | .render | .setContrast _ | .setInvert _ | .setPixel _ _ | .clearPixel _ _
  | .drawLine _ _ _ _ _ | .drawBox _ _ _ _ _ _ | .drawChar _ _ _ _ | .drawText _ _ _ _ => true
  | .cmdMemoryMode _ | .cmdColumnAddr _ _ | .cmdPageAddr _ _ | .cmdSetStartLine | .cmdSetContrast _ | .cmdChargePump _
  | .cmdSegRemap | .cmdDisplayAllOn | .cmdNormalDisplay | .cmdInvertDisplay | .cmdSetMultiplex _ | .cmdDisplayOff
  | .cmdDisplayOn | .cmdComScanDec | .cmdSetDisplayOffset _ | .cmdSetDisplayClockDiv _ | .cmdSetPrecharge _
  | .cmdSetComPins _ | .cmdSetVcomDetect _ | .cmdData => false

/-- The drawing operations and CLEAR: the operations that write the framebuffer only (44_controller.md R216 (e)). -/
def isDrawing : Instr → Bool
  | .clear | .setPixel _ _ | .clearPixel _ _ | .drawLine _ _ _ _ _ | .drawBox _ _ _ _ _ _ | .drawChar _ _ _ _
  | .drawText _ _ _ _ => true
  | .construct _ _ _ _ | .destroy | .render | .setContrast _ | .setInvert _ | .cmdMemoryMode _ | .cmdColumnAddr _ _
  | .cmdPageAddr _ _ | .cmdSetStartLine | .cmdSetContrast _ | .cmdChargePump _ | .cmdSegRemap | .cmdDisplayAllOn
  | .cmdNormalDisplay | .cmdInvertDisplay | .cmdSetMultiplex _ | .cmdDisplayOff | .cmdDisplayOn | .cmdComScanDec
  | .cmdSetDisplayOffset _ | .cmdSetDisplayClockDiv _ | .cmdSetPrecharge _ | .cmdSetComPins _ | .cmdSetVcomDetect _
  | .cmdData => false

/-- The number of transactions an executed instruction emits (44_controller.md R216 (c), 30_encoding.md R101, R102). -/
def transactionCount : Instr → Nat
  | .construct _ _ _ _ => 25
  | .render => 7
  | .setContrast _ => 2
  | .setInvert _ => 1
  | .destroy | .clear | .setPixel _ _ | .clearPixel _ _ | .drawLine _ _ _ _ _ | .drawBox _ _ _ _ _ _ | .drawChar _ _ _ _
  | .drawText _ _ _ _ => 0
  | .cmdMemoryMode _ | .cmdSetContrast _ | .cmdChargePump _ | .cmdSetMultiplex _ | .cmdSetDisplayOffset _
  | .cmdSetDisplayClockDiv _ | .cmdSetPrecharge _ | .cmdSetComPins _ | .cmdSetVcomDetect _ => 2
  | .cmdColumnAddr _ _ | .cmdPageAddr _ _ => 3
  | .cmdSetStartLine | .cmdSegRemap | .cmdDisplayAllOn | .cmdNormalDisplay | .cmdInvertDisplay | .cmdDisplayOff
  | .cmdDisplayOn | .cmdComScanDec | .cmdData => 1

/-- The state executes the instruction (44_controller.md R214, 30_encoding.md R84): CONSTRUCT while Uninitialized with legal operand
ranges, every other operation while Ready; a command of the sequencer always. -/
def accepts (s : State) (i : Instr) : Bool :=
  match i with
  | .construct w h _ _ => decide (s.ctrl = .uninitialized) && geometryOk w h
  | i => !isOperation i || decide (s.ctrl = .ready)

/-- The configuration is one CONSTRUCT accepts (10_state.md R22). -/
abbrev CfgLegal (cfg : Cfg) : Prop :=
  geometryOk cfg.width cfg.height = true ∧ cfg.pages.toNat = cfg.height.toNat / 8

/-- The transport answers the next `k` transactions and never the one after them (70_reset_and_hazards.md R292). -/
abbrev NeverAnswers (s : State) (k : Nat) : Prop :=
  s.blocked = false ∧ (∀ r ∈ s.transport.take k, r ≠ .never) ∧ s.transport[k]? = some .never

/-- The instruction hands over the first `k + 1` of its byte sequences and waits for ever (70_reset_and_hazards.md R292): nothing else of the
block changes but the control byte, if the data transfer is among them; `left` is what the sequencer then holds, and a step without a
reset is the stuck state (log 7). -/
def BlocksAt (i : Instr) (s : State) (bytes : List (List Byte)) (left : List CmdWord) (k : Nat) : Prop :=
  ∃ t, exec i s = .next t ∧
    t = { s with
      fb := t.fb
      out := sent s (bytes.take (k + 1))
      blocked := true
      sequencer := left
      transport := s.transport.drop (k + 1) } ∧
    (∀ a, a ≠ 0 → fbRead t a = fbRead s a) ∧
    fbRead t 0 = (if 0x40 :: pixelBytes s ∈ bytes.take (k + 1) then 0x40 else fbRead s 0) ∧
    (s.host.head? ≠ some .reset → step t = .fault .transportNeverAnswers)

/-- The bytes of a transaction have one of the two forms of 44_controller.md R216 (b): two bytes beginning 0x00, or 2 to 7906 bytes
beginning 0x40. -/
abbrev TransactionShape (bytes : List Byte) : Prop :=
  (bytes.length = 2 ∧ bytes.head? = some 0x00) ∨
    (bytes.head? = some 0x40 ∧ 2 ≤ bytes.length ∧ bytes.length ≤ Config.fbMax)

/-- The invariant of the machine: what every state on a run satisfies. -/
structure Inv (s : State) : Prop where
  /-- The framebuffer is in its canonical form. -/
  fbCanonical : Memory.wf s.fb
  /-- Only bytes in use are written (10_state.md R30). -/
  fbInUse : ∀ c ∈ s.fb, c.1 < fbLen s.cfg
  /-- Outside Uninitialized the configuration is a legal one (10_state.md R22). -/
  cfgLegal : s.ctrl ≠ .uninitialized → CfgLegal s.cfg
  /-- No command is running while Uninitialized. -/
  idleWhenUninitialized : s.ctrl = .uninitialized → s.sequencer = []
  /-- Initializing means that the init sequence is running (10_state.md R21). -/
  runningWhenInitializing : s.ctrl = .initializing → s.sequencer ≠ []
  /-- The sequencer holds commands of the closed set only (30_encoding.md R103). -/
  sequencerKnown : ∀ w ∈ s.sequencer, (decodeCommand w).isSome = true
  /-- Every transaction ever emitted has one of the two forms (44_controller.md R216 (b)). -/
  outShape : ∀ t ∈ s.out, TransactionShape t.bytes

end Sys2Proof
end

