-- ==== Sys2Proof/Certificates/Slice0/Obligations.lean ====
section
/-! DEFINITION. The statements about the display block, each from the numbered rules of spec/ its docstring names. A free value (the
framebuffer after CONSTRUCT, `cfg` after DESTROY) is a constant without a body, so every statement holds for all its values. -/

open Sys2Proof Sys2Proof.Machine

/-! ## Encoding -/

/-- 30_encoding.md R81, R93 (the bijection is marked derived there): encoding a well-formed instruction and decoding it gives it back, for
the host operations and the device commands alike. -/
def Obligations.DecodeInvertsEncode : Prop :=
  ∀ i : Instr, wellFormed i = true → decode (encode i) = .ok i

/-- 30_encoding.md R81: what decodes to an instruction is that instruction's encoding; no other word means the same. -/
def Obligations.EncodeInvertsDecode : Prop :=
  ∀ (c : Code) (i : Instr), decode c = .ok i → encode i = c

/-- 30_encoding.md R94, 60_exceptions.md R253 RF1: opcodes 0x0C to 0xFF are reserved, whatever follows them. -/
def Obligations.ReservedOpcodesAreRefused : Prop :=
  ∀ (op : Byte) (body : List Byte), 0x0C ≤ op.toNat → decodeDescriptor (op :: body) = .error .reservedOpcode

/-- 30_encoding.md R93, 60_exceptions.md R253 RF2: a descriptor with a known opcode is refused for its length exactly when its length is not
the fixed one of its format, or 7 plus byte 6 for DRAWTEXT. -/
def Obligations.LengthIsCheckedExactly : Prop :=
  ∀ (op : Byte) (body : List Byte), op.toNat ≤ 0x0B →
    (decodeDescriptor (op :: body) = .error .wrongLength ↔
      (op :: body).length ≠
        if op.toNat = 0x0B then 7 + ((op :: body).getD 6 0).toNat
        else [5, 1, 1, 1, 2, 2, 5, 5, 10, 10, 7].getD op.toNat 0)

/-- 30_encoding.md R84, R86, R88, R89, R90, R92, 60_exceptions.md R253 RF3: a reserved bit of a flags byte, or bit 7 of the address. -/
def Obligations.ReservedBitsAreRefused : Prop :=
  ∀ (b0 b1 b2 b3 b4 b5 b6 b7 f : Byte) (text : List Byte),
    (f.toNat ≥ 2 →
      decodeDescriptor [0x00, b0, b1, b2, f] = .error .reservedBit ∧
      decodeDescriptor [0x05, f] = .error .reservedBit ∧
      decodeDescriptor [0x08, b0, b1, b2, b3, b4, b5, b6, b7, f] = .error .reservedBit ∧
      decodeDescriptor [0x0A, b0, b1, b2, b3, b4, f] = .error .reservedBit ∧
      (text.length ≤ 255 →
        decodeDescriptor (0x0B :: b0 :: b1 :: b2 :: b3 :: f :: BitVec.ofNat 8 text.length :: text) = .error .reservedBit)) ∧
    (f.toNat ≥ 4 → decodeDescriptor [0x09, b0, b1, b2, b3, b4, b5, b6, b7, f] = .error .reservedBit) ∧
    (b2.toNat ≥ 0x80 → decodeDescriptor [0x00, b0, b1, b2, f] = .error .reservedBit)

/-- 30_encoding.md R95: the fourteen worked encodings, and one command word of each arity (R100). -/
def Obligations.WorkedEncodingsDecode : Prop :=
  decodeDescriptor [0x00, 0x80, 0x20, 0x3C, 0x00] = .ok (.construct 128 32 0x3C false) ∧
  decodeDescriptor [0x00, 0x80, 0x40, 0x3D, 0x01] = .ok (.construct 128 64 0x3D true) ∧
  decodeDescriptor [0x01] = .ok .destroy ∧
  decodeDescriptor [0x02] = .ok .clear ∧
  decodeDescriptor [0x03] = .ok .render ∧
  decodeDescriptor [0x04, 0x7F] = .ok (.setContrast 0x7F) ∧
  decodeDescriptor [0x05, 0x01] = .ok (.setInvert true) ∧
  decodeDescriptor [0x06, 0x7F, 0x00, 0x1F, 0x00] = .ok (.setPixel 127 31) ∧
  decodeDescriptor [0x07, 0xFE, 0xFF, 0x2C, 0x01] = .ok (.clearPixel (-2) 300) ∧
  decodeDescriptor [0x08, 0x00, 0x00, 0x00, 0x00, 0x05, 0x00, 0x02, 0x00, 0x01] = .ok (.drawLine 0 0 5 2 true) ∧
  decodeDescriptor [0x09, 0x00, 0x00, 0x00, 0x00, 0x04, 0x00, 0x04, 0x00, 0x01] = .ok (.drawBox 0 0 4 4 false true) ∧
  decodeDescriptor [0x09, 0x00, 0x00, 0x00, 0x00, 0x04, 0x00, 0x04, 0x00, 0x03] = .ok (.drawBox 0 0 4 4 true true) ∧
  decodeDescriptor [0x0A, 0x06, 0x00, 0x00, 0x00, 0x42, 0x00] = .ok (.drawChar 6 0 0x42 false) ∧
  decodeDescriptor [0x0B, 0x00, 0x00, 0x00, 0x00, 0x01, 0x02, 0x41, 0x42] = .ok (.drawText 0 0 true [0x41, 0x42]) ∧
  decodeCommand (.cmd0 0xAE) = some .cmdDisplayOff ∧
  decodeCommand (.cmd1 0xA8 0x1F) = some (.cmdSetMultiplex 0x1F) ∧
  decodeCommand (.cmd2 0x22 0x00 0x03) = some (.cmdPageAddr 0x00 0x03)

/-! ## Framebuffer -/

/-- 20_memory.md R52: the address of an in-bounds pixel, which never is the control byte, and the bijection onto the bits of the pixel
region (marked derived there). -/
def Obligations.PixelAddressIsBijection : Prop :=
  ∀ cfg : Cfg, CfgLegal cfg →
    (∀ x y, inBounds cfg x y = true →
      (pixelIndex cfg x y : Int) = 1 + cfg.width.toNat * (y / 8) + x ∧ (pixelBit y : Int) = y % 8 ∧
      1 ≤ pixelIndex cfg x y ∧ pixelIndex cfg x y ≤ cfg.width.toNat * cfg.pages.toNat) ∧
    (∀ x y x' y', inBounds cfg x y = true → inBounds cfg x' y' = true →
      pixelIndex cfg x y = pixelIndex cfg x' y' → pixelBit y = pixelBit y' → x = x' ∧ y = y') ∧
    (∀ a b : Nat, 1 ≤ a → a ≤ cfg.width.toNat * cfg.pages.toNat → b < 8 →
      ∃ x y, inBounds cfg x y = true ∧ pixelIndex cfg x y = a ∧ pixelBit y = b)

/-- 40_framebuffer.md R120, R121, R122: `plot`, for any integers and in every state: `setPixel` ORs the mask into the byte, `clearPixel` ANDs its
complement, a pair out of bounds changes nothing, and nothing else changes. -/
def Obligations.PixelPrimitives : Prop :=
  ∀ (set : Bool) (x y : Int) (s : State),
    OnlyFb s (plot set x y s) ∧
    ∀ a : Nat, fbRead (plot set x y s) a =
      if (0 ≤ x ∧ x < s.cfg.width.toNat ∧ 0 ≤ y ∧ y < s.cfg.height.toNat) ∧ (a : Int) = 1 + s.cfg.width.toNat * (y / 8) + x then
        if set then fbRead s a ||| (1 : Byte) <<< (y % 8).toNat else fbRead s a &&& ~~~((1 : Byte) <<< (y % 8).toNat)
      else fbRead s a

/-- 40_framebuffer.md R125: `clearAll`, in every state: every byte in use becomes 0x00, the control byte among them, and nothing else changes;
after it every pixel is clear. -/
def Obligations.ClearAllPrimitive : Prop :=
  ∀ s : State,
    OnlyFb s (clearAll s) ∧
    (∀ a, fbRead (clearAll s) a = if a < s.cfg.width.toNat * s.cfg.pages.toNat + 1 then 0x00 else fbRead s a) ∧
    fbRead (clearAll s) 0 = 0x00 ∧
    (CfgLegal s.cfg → ∀ x y, inBounds s.cfg x y = true → pixel (clearAll s) x y = false)

/-- 40_framebuffer.md R120, R123: SETPIXEL while Ready completes, ORs the pixel's mask into its byte if the pair is in bounds, and changes
nothing else; while Uninitialized it is refused. That the refusal is a next state which
records its cause is the model's choice (DESIGN CHOICE, log 2). -/
def Obligations.SetPixelOperation : Prop :=
  ∀ (x y : S16) (s : State),
    (s.ctrl = .ready →
      ∃ t, exec (.setPixel x y) s = .next t ∧ OnlyFb s t ∧
        ∀ a, fbRead t a =
          if inBounds s.cfg x.toInt y.toInt = true ∧ a = pixelIndex s.cfg x.toInt y.toInt
          then fbRead s a ||| pixelMask y.toInt else fbRead s a) ∧
    (s.ctrl = .uninitialized → RefusedWrongState (.setPixel x y) s)

/-- 40_framebuffer.md R121, R124: CLEARPIXEL, as SETPIXEL with the bit forced to 0; while Uninitialized it is refused. That the refusal is a
next state which records its cause is the model's choice (DESIGN CHOICE, log 2). -/
def Obligations.ClearPixelOperation : Prop :=
  ∀ (x y : S16) (s : State),
    (s.ctrl = .ready →
      ∃ t, exec (.clearPixel x y) s = .next t ∧ OnlyFb s t ∧
        ∀ a, fbRead t a =
          if inBounds s.cfg x.toInt y.toInt = true ∧ a = pixelIndex s.cfg x.toInt y.toInt
          then fbRead s a &&& ~~~(pixelMask y.toInt) else fbRead s a) ∧
    (s.ctrl = .uninitialized → RefusedWrongState (.clearPixel x y) s)

/-- 40_framebuffer.md R125, R126: CLEAR while Ready completes, zeroes every byte in use, the control byte among them, and changes nothing
else; while Uninitialized it is refused. That the refusal is a next state which
records its cause is the model's choice (DESIGN CHOICE, log 2). -/
def Obligations.ClearOperation : Prop :=
  ∀ s : State,
    (s.ctrl = .ready →
      ∃ t, exec .clear s = .next t ∧ OnlyFb s t ∧
        ∀ a, fbRead t a = if a < s.cfg.width.toNat * s.cfg.pages.toNat + 1 then 0x00 else fbRead s a) ∧
    (s.ctrl = .uninitialized → RefusedWrongState .clear s)

/-- 40_framebuffer.md R127 (a), (b), (c), with the query `pixel` of 10_state.md R48: set then query, clear then query, CLEAR then query;
out of bounds nothing at all changes; the other pixels and the control byte keep their value. -/
def Obligations.PixelQueryLaws : Prop :=
  ∀ (x y : S16) (set : Bool) (s : State), s.ctrl = .ready →
    (inBounds s.cfg x.toInt y.toInt = true →
      ∃ t, exec (if set then .setPixel x y else .clearPixel x y) s = .next t ∧ pixel t x.toInt y.toInt = set ∧
        (∀ px py, inBounds s.cfg px py = true → (px, py) ≠ (x.toInt, y.toInt) → pixel t px py = pixel s px py) ∧
        fbRead t 0 = fbRead s 0) ∧
    (inBounds s.cfg x.toInt y.toInt = false → exec (if set then .setPixel x y else .clearPixel x y) s = .next s) ∧
    (CfgLegal s.cfg →
      ∃ t, exec .clear s = .next t ∧ ∀ px py, inBounds s.cfg px py = true → pixel t px py = false)

/-- 40_framebuffer.md R127 (d) (marked derived there): two plots commute unless they force the same in-bounds pixel to different values,
and on the same pixel the later one wins. -/
def Obligations.PlotsCommute : Prop :=
  ∀ (set set' : Bool) (x y x' y' : Int) (s : State), Memory.wf s.fb →
    ((set = set' ∨ (x, y) ≠ (x', y')) → plot set x y (plot set' x' y' s) = plot set' x' y' (plot set x y s)) ∧
    plot set x y (plot set' x y s) = plot set x y s

/-! ## Lines -/

/-- 41_line.md R141: the iterations of `line` are those of the rule's loop. The first stands at the first end point with `err = dx + dy`;
each next one follows from the one before it by the two tests on one `e2 = 2 * err`, and no iteration follows the end point; the last
stands at the end point. -/
def Obligations.LineRunsTheLoop : Prop :=
  ∀ x1 y1 x2 y2 : Int,
    let dx : Int := |x2 - x1|
    let dy : Int := -|y2 - y1|
    let sx : Int := if x1 < x2 then 1 else -1
    let sy : Int := if y1 < y2 then 1 else -1
    (lineTrace x1 y1 x2 y2).head? = some (x1, y1, dx + dy) ∧
    (∀ (k : Nat) (x y err : Int) (e : Int × Int × Int),
      (lineTrace x1 y1 x2 y2)[k]? = some (x, y, err) → (lineTrace x1 y1 x2 y2)[k + 1]? = some e →
      ¬ (x = x2 ∧ y = y2) ∧
      e = (if 2 * err ≥ dy then x + sx else x, if 2 * err ≤ dx then y + sy else y,
        err + (if 2 * err ≥ dy then dy else 0) + (if 2 * err ≤ dx then dx else 0))) ∧
    (∃ err, (lineTrace x1 y1 x2 y2).getLast? = some (x2, y2, err)) ∧
    linePoints x1 y1 x2 y2 = (lineTrace x1 y1 x2 y2).map fun e => (e.1, e.2.1)

/-- 41_line.md R142 (a), (b) (marked derived there): the loop runs `max(dx, |dy|) + 1` times, plots that many distinct points, the first
end point first and the second last. -/
def Obligations.LineVisitsMaxPlusOnePoints : Prop :=
  ∀ x1 y1 x2 y2 : Int,
    (linePoints x1 y1 x2 y2).length = max (x2 - x1).natAbs (y2 - y1).natAbs + 1 ∧
    (linePoints x1 y1 x2 y2).Nodup ∧
    (linePoints x1 y1 x2 y2).head? = some (x1, y1) ∧
    (linePoints x1 y1 x2 y2).getLast? = some (x2, y2)

/-- 41_line.md R142 (c), (d) (marked derived there): every step moves each axis by 0 or its sign, the major axis always, and every point lies
in the rectangle the end points span. -/
def Obligations.LineStepsAndStaysInside : Prop :=
  ∀ x1 y1 x2 y2 : Int,
    let sx : Int := if x1 < x2 then 1 else -1
    let sy : Int := if y1 < y2 then 1 else -1
    (∀ (k : Nat) (p q : Point), (linePoints x1 y1 x2 y2)[k]? = some p → (linePoints x1 y1 x2 y2)[k + 1]? = some q →
      (q.1 = p.1 ∨ q.1 = p.1 + sx) ∧ (q.2 = p.2 ∨ q.2 = p.2 + sy) ∧
      (|y2 - y1| ≤ |x2 - x1| → q.1 = p.1 + sx) ∧ (|x2 - x1| ≤ |y2 - y1| → q.2 = p.2 + sy)) ∧
    (∀ p ∈ linePoints x1 y1 x2 y2, Between x1 x2 p.1 ∧ Between y1 y2 p.2)

/-- 41_line.md R142 (e), R143 (a), (b), (c): a line along an axis, a single point among them, is every point of its segment in order. -/
def Obligations.AxisLinesAreSegments : Prop :=
  ∀ a b c : Int,
    let s : Int := if a < b then 1 else -1
    linePoints a c b c = (List.range ((b - a).natAbs + 1)).map (fun k : Nat => (a + s * (k : Int), c)) ∧
    linePoints c a c b = (List.range ((b - a).natAbs + 1)).map (fun k : Nat => (c, a + s * (k : Int)))

/-- 41_line.md R142 (f), 00_scope.md R12 (marked derived there): at the top of every iteration `3 * dy ≤ 2 * err ≤ 3 * dx`, so for s16 end
points nothing exceeds 196605 in magnitude. -/
def Obligations.LineErrorStaysBounded : Prop :=
  (∀ x1 y1 x2 y2 : Int, ∀ e ∈ lineTrace x1 y1 x2 y2,
    3 * -|y2 - y1| ≤ 2 * e.2.2 ∧ 2 * e.2.2 ≤ 3 * |x2 - x1|) ∧
  (∀ x1 y1 x2 y2 : S16, ∀ e ∈ lineTrace x1.toInt y1.toInt x2.toInt y2.toInt, |2 * e.2.2| ≤ 196605)

/-- 41_line.md R144 and R142 (h): the worked trace, and a line whose reversal plots other points. -/
def Obligations.WorkedLineTrace : Prop :=
  lineTrace 0 0 5 2 = [(0, 0, 3), (1, 0, 1), (2, 1, 4), (3, 1, 2), (4, 2, 5), (5, 2, 3)] ∧
  linePoints 0 0 2 1 = [(0, 0), (1, 1), (2, 1)] ∧
  linePoints 0 0 1 2 = [(0, 0), (1, 1), (1, 2)] ∧
  linePoints 1 2 0 0 = [(1, 2), (0, 1), (0, 0)]

/-- 41_line.md R140: DRAWLINE while Ready completes and sets or clears exactly the in-bounds points of the line, and changes nothing else;
while Uninitialized it is refused. That the refusal is a next state which
records its cause is the model's choice (DESIGN CHOICE, log 2). -/
def Obligations.DrawLineOperation : Prop :=
  ∀ (x1 y1 x2 y2 : S16) (set : Bool) (s : State),
    (s.ctrl = .ready →
      ∃ t, exec (.drawLine x1 y1 x2 y2 set) s = .next t ∧
        Draws (fun x y => (x, y) ∈ linePoints x1.toInt y1.toInt x2.toInt y2.toInt) set s t) ∧
    (s.ctrl = .uninitialized → RefusedWrongState (.drawLine x1 y1 x2 y2 set) s)

/-! ## Boxes -/

/-- 42_box.md R160, R161, R162: DRAWBOX in outline mode while Ready completes and sets or clears exactly the in-bounds pixels of the
perimeter of the rectangle spanned by `(x, y)` and `(x + w, y + h)`, whatever the signs of `w` and `h`; the interior and everything else
stays as it was; while Uninitialized it is refused. That the refusal is a next state which
records its cause is the model's choice (DESIGN CHOICE, log 2). -/
def Obligations.DrawBoxOutline : Prop :=
  ∀ (x y w h : S16) (set : Bool) (s : State),
    (s.ctrl = .ready →
      ∃ t, exec (.drawBox x y w h false set) s = .next t ∧
        Draws (OnPerimeter x.toInt y.toInt (x.toInt + w.toInt) (y.toInt + h.toInt)) set s t) ∧
    (s.ctrl = .uninitialized → RefusedWrongState (.drawBox x y w h false set) s)

/-- 42_box.md R160, R161, R163: DRAWBOX in filled mode while Ready completes and sets, whatever the `set` operand, exactly the in-bounds pixels
of the rows `y` to `y + h` between the columns `x` and `x + w`: none for negative `h`; nothing else changes; while Uninitialized it is
refused. That the refusal is a next state which
records its cause is the model's choice (DESIGN CHOICE, log 2). -/
def Obligations.DrawBoxFilled : Prop :=
  ∀ (x y w h : S16) (set : Bool) (s : State),
    (s.ctrl = .ready →
      ∃ t, exec (.drawBox x y w h true set) s = .next t ∧
        Draws (fun px py => Between x.toInt (x.toInt + w.toInt) px ∧ y.toInt ≤ py ∧ py ≤ y.toInt + h.toInt) true s t) ∧
    (s.ctrl = .uninitialized → RefusedWrongState (.drawBox x y w h true set) s)

/-! ## Glyphs and text -/

/-- 43_glyph_text.md R180, R182: the glyph cell, for any integers and in every state: its points are the 1 bits of the character's glyph, each
once, column by column from the left and row by row from the top; plotting them sets or clears exactly those in bounds and changes nothing
else. -/
def Obligations.GlyphCellPrimitive : Prop :=
  ∀ (ch : Byte) (x y : Int) (set : Bool) (s : State),
    (∀ px py, (px, py) ∈ glyphPoints (glyph ch) x y ↔ InGlyph ch x y px py) ∧
    ((glyphPoints (glyph ch) x y).Pairwise fun p q => p.1 < q.1 ∨ (p.1 = q.1 ∧ p.2 < q.2)) ∧
    Draws (InGlyph ch x y) set s (plotAll set (glyphPoints (glyph ch) x y) s)

/-- 43_glyph_text.md R180, R181, R182: DRAWCHAR while Ready completes and sets or clears exactly the in-bounds pixels under the 1 bits of the
character's glyph, the undefined glyph for codes outside 0x20 to 0x7E; nothing else changes; while Uninitialized it is refused.
That the refusal is a next state which records its cause is the model's choice (DESIGN CHOICE, log 2). -/
def Obligations.DrawCharOperation : Prop :=
  ∀ (x y : S16) (ch : Byte) (set : Bool) (s : State),
    (s.ctrl = .ready →
      ∃ t, exec (.drawChar x y ch set) s = .next t ∧ Draws (InGlyph ch x.toInt y.toInt) set s t) ∧
    (s.ctrl = .uninitialized → RefusedWrongState (.drawChar x y ch set) s)

/-- 43_glyph_text.md R185: DRAWTEXT while Ready completes and draws character `k` in the cell at `(x + 6 * k, y)`, and changes nothing else; an
empty text draws nothing; while Uninitialized it is refused. That the refusal is a next state which
records its cause is the model's choice (DESIGN CHOICE, log 2). -/
def Obligations.DrawTextOperation : Prop :=
  ∀ (x y : S16) (set : Bool) (text : List Byte) (s : State),
    (s.ctrl = .ready →
      ∃ t, exec (.drawText x y set text) s = .next t ∧ Draws (InText text x.toInt y.toInt) set s t) ∧
    (s.ctrl = .uninitialized → RefusedWrongState (.drawText x y set text) s)

/-- 43_glyph_text.md R186 (a), (b) (marked derived there): a text is drawn piece by piece, and one character of text is DRAWCHAR. -/
def Obligations.TextIsDrawnPieceByPiece : Prop :=
  ∀ (x y x' : S16) (set : Bool) (a b : List Byte) (ch : Byte) (s : State), s.ctrl = .ready →
    (x'.toInt = x.toInt + 6 * a.length →
      ∃ m t, exec (.drawText x y set a) s = .next m ∧ exec (.drawText x' y set b) m = .next t ∧
        exec (.drawText x y set (a ++ b)) s = .next t) ∧
    exec (.drawText x y set [ch]) s = exec (.drawChar x y ch set) s

/-- 43_glyph_text.md R186 (c) (marked derived there): drawing a character and drawing it again with `set` = 0 leaves its 1 bits clear and every
other pixel as it was. -/
def Obligations.CharIsErasedByRedrawing : Prop :=
  ∀ (x y : S16) (ch : Byte) (s : State), s.ctrl = .ready →
    ∃ m t, exec (.drawChar x y ch true) s = .next m ∧ exec (.drawChar x y ch false) m = .next t ∧
      Draws (InGlyph ch x.toInt y.toInt) false s t

/-! ## The controller -/

/-- 44_controller.md R205: CONSTRUCT while Uninitialized with legal operands completes when the transport answers (70_reset_and_hazards.md
R292): Ready, `cfg` from the operands, the 25 transactions of the init sequence in order to the new address, the framebuffer unspecified
(10_state.md R46: byte `a` is the free value of the next draw, whatever it is, log 3), and nothing else changed. That the bytes at or above
FB_LEN become unspecified too is the model's reading (DEDUCED, log 14). -/
def Obligations.ConstructOperation : Prop :=
  ∀ (w h : Byte) (a : BitVec 7) (e : Bool) (s : State),
    s.ctrl = .uninitialized → w ≠ 0 → h ≠ 0 → h.toNat % 8 = 0 → s.blocked = false → Answers s →
    ∃ t, exec (.construct w h a e) s = .next t ∧
      t = { s with
        ctrl := .ready
        cfg := ⟨w, h, BitVec.ofNat 5 (h.toNat / 8), a, e⟩
        fb := []
        draw := s.draw + 1
        sequencer := []
        transport := s.transport.drop 25
        out := s.out ++
          [[0x00, 0xAE], [0x00, 0xD5], [0x00, Config.clkdivArg], [0x00, 0xA8], [0x00, h - 1], [0x00, 0xD3], [0x00, 0x00],
            [0x00, 0x40], [0x00, 0x8D], [0x00, if e then Config.chargepumpExt else Config.chargepumpInt], [0x00, 0x20],
            [0x00, Config.memmodePage], [0x00, 0xA1], [0x00, 0xC8], [0x00, 0xDA],
            [0x00, if h = 64 then Config.compins64 else Config.compinsOther], [0x00, 0x81], [0x00, 0xFF], [0x00, 0xD9],
            [0x00, if e then Config.prechargeExt else Config.prechargeInt], [0x00, 0xDB], [0x00, Config.vcomdetectArg],
            [0x00, 0xA4], [0x00, 0xA6], [0x00, 0xAF]].map fun b => ⟨a, b⟩ } ∧
      ∀ i, fbRead t i = Config.freeFb (s.draw + 1) i

/-- 60_exceptions.md R253 RF4, RF5 and R256: CONSTRUCT while Ready is refused for its state, before its operands are looked at; while
Uninitialized it is refused for bad geometry. In both cases nothing of the block changes; the record of the cause is the
model's own (log 2). -/
def Obligations.ConstructRefusals : Prop :=
  ∀ (w h : Byte) (a : BitVec 7) (e : Bool) (s : State),
    (s.ctrl = .ready → RefusedWrongState (.construct w h a e) s) ∧
    (s.ctrl = .uninitialized → (w = 0 ∨ h = 0 ∨ h.toNat % 8 ≠ 0) →
      exec (.construct w h a e) s = .next { s with refusals := s.refusals ++ [.badGeometry] })

/-- 44_controller.md R210, 20_memory.md R65: RENDER while Ready completes when the transport answers (70_reset_and_hazards.md R292): PAGEADDR,
COLUMNADDR, then one transaction of 0x40 and the pixel bytes the framebuffer holds, which are what the screen shows (10_state.md R43 (a));
the control byte becomes 0x40 and nothing else changes; while Uninitialized it is refused. That the refusal is a next state which
records its cause is the model's choice (DESIGN CHOICE, log 2). -/
def Obligations.RenderOperation : Prop :=
  ∀ s : State,
    (s.ctrl = .ready → s.blocked = false → Answers s →
      ∃ t, exec .render s = .next t ∧
        t = { s with
          fb := t.fb
          sequencer := []
          transport := s.transport.drop 7
          out := s.out ++
            [[0x00, 0x22], [0x00, 0x00], [0x00, s.cfg.pages.setWidth 8 - 1], [0x00, 0x21], [0x00, 0x00],
              [0x00, s.cfg.width - 1], 0x40 :: pixelBytes s].map fun b => ⟨s.cfg.addr, b⟩ } ∧
        fbRead t 0 = 0x40 ∧ (∀ a, a ≠ 0 → fbRead t a = fbRead s a) ∧
        lastFrame t.out = some (pixelBytes t)) ∧
    (s.ctrl = .uninitialized → RefusedWrongState .render s)

/-- 44_controller.md R211, R212: SETCONTRAST sends [00 81] [00 level], SETINVERT sends [00 A7] or [00 A6], when the transport answers
(70_reset_and_hazards.md R292); nothing is remembered and the framebuffer is not touched; while Uninitialized both are refused. That the refusal is a next state which
records its cause is the model's choice (DESIGN CHOICE, log 2). -/
def Obligations.ContrastAndInvertOperations : Prop :=
  ∀ (level : Byte) (invert : Bool) (s : State),
    (s.ctrl = .ready → s.blocked = false → Answers s →
      exec (.setContrast level) s = .next { s with
        sequencer := []
        transport := s.transport.drop 2
        out := s.out ++ [⟨s.cfg.addr, [0x00, 0x81]⟩, ⟨s.cfg.addr, [0x00, level]⟩] } ∧
      exec (.setInvert invert) s = .next { s with
        sequencer := []
        transport := s.transport.drop 1
        out := s.out ++ [⟨s.cfg.addr, [0x00, if invert then 0xA7 else 0xA6]⟩] }) ∧
    (s.ctrl = .uninitialized → RefusedWrongState (.setContrast level) s ∧ RefusedWrongState (.setInvert invert) s)

/-- 44_controller.md R213, 10_state.md R47: DESTROY while Ready completes, nothing is sent, STATE is Uninitialized, `cfg` and the framebuffer
are unspecified; while Uninitialized it is refused. That unspecified means the free values of the next draw is the model's form (DESIGN
CHOICE, logs 3 and 5), and so is that the refusal is a next state which records its cause (DESIGN CHOICE, log 2). -/
def Obligations.DestroyOperation : Prop :=
  ∀ s : State,
    (s.ctrl = .ready →
      ∃ t, exec .destroy s = .next t ∧
        t = { s with ctrl := .uninitialized, cfg := t.cfg, fb := t.fb, draw := s.draw + 1 } ∧
        (∀ a, fbRead t a = Config.freeFb (s.draw + 1) a) ∧
        t.cfg.width = Config.freeWidth (s.draw + 1) ∧ t.cfg.height = Config.freeHeight (s.draw + 1) ∧
        t.cfg.pages = Config.freePages (s.draw + 1) ∧ t.cfg.addr = Config.freeAddr (s.draw + 1) ∧
        t.cfg.extVcc = Config.freeExtVcc (s.draw + 1)) ∧
    (s.ctrl = .uninitialized → RefusedWrongState .destroy s)

/-! ## Device commands -/

/-- 30_encoding.md R100, R101, 44_controller.md R201: the eight commands without an argument, each one transaction [00 op]. -/
def Obligations.CommandsWithoutArgument : Prop :=
  ∀ s : State, s.blocked = false → Answers s →
    Emits .cmdSetStartLine s [[0x00, 0x40]] ∧ Emits .cmdSegRemap s [[0x00, 0xA1]] ∧ Emits .cmdDisplayAllOn s [[0x00, 0xA4]] ∧
    Emits .cmdNormalDisplay s [[0x00, 0xA6]] ∧ Emits .cmdInvertDisplay s [[0x00, 0xA7]] ∧
    Emits .cmdDisplayOff s [[0x00, 0xAE]] ∧ Emits .cmdDisplayOn s [[0x00, 0xAF]] ∧ Emits .cmdComScanDec s [[0x00, 0xC8]]

/-- 30_encoding.md R100, R101, 44_controller.md R201: the nine commands with one argument, each [00 op] [00 a1]. -/
def Obligations.CommandsWithOneArgument : Prop :=
  ∀ (a1 : Byte) (s : State), s.blocked = false → Answers s →
    Emits (.cmdMemoryMode a1) s [[0x00, 0x20], [0x00, a1]] ∧ Emits (.cmdSetContrast a1) s [[0x00, 0x81], [0x00, a1]] ∧
    Emits (.cmdChargePump a1) s [[0x00, 0x8D], [0x00, a1]] ∧ Emits (.cmdSetMultiplex a1) s [[0x00, 0xA8], [0x00, a1]] ∧
    Emits (.cmdSetDisplayOffset a1) s [[0x00, 0xD3], [0x00, a1]] ∧
    Emits (.cmdSetDisplayClockDiv a1) s [[0x00, 0xD5], [0x00, a1]] ∧ Emits (.cmdSetPrecharge a1) s [[0x00, 0xD9], [0x00, a1]] ∧
    Emits (.cmdSetComPins a1) s [[0x00, 0xDA], [0x00, a1]] ∧ Emits (.cmdSetVcomDetect a1) s [[0x00, 0xDB], [0x00, a1]]

/-- 30_encoding.md R100, R101, 44_controller.md R201: the two commands with two arguments, each [00 op] [00 a1] [00 a2]. -/
def Obligations.CommandsWithTwoArguments : Prop :=
  ∀ (a1 a2 : Byte) (s : State), s.blocked = false → Answers s →
    Emits (.cmdColumnAddr a1 a2) s [[0x00, 0x21], [0x00, a1], [0x00, a2]] ∧
    Emits (.cmdPageAddr a1 a2) s [[0x00, 0x22], [0x00, a1], [0x00, a2]]

/-- 30_encoding.md R102, 44_controller.md R210: the data transfer is one transaction of 0x40 and the `WIDTH * PAGES` pixel bytes; the control
byte becomes 0x40 and nothing else changes. The rules say this of RENDER's last two lines; that CMD.DATA by itself writes 0x40 to FB[0] and
takes its bytes from the framebuffer is the model's reading (DEDUCED, log 10). -/
def Obligations.DataTransferCommand : Prop :=
  ∀ s : State, s.blocked = false → Answers s →
    ∃ t, exec .cmdData s = .next t ∧
      t = { s with fb := t.fb, transport := s.transport.drop 1, out := s.out ++ [⟨s.cfg.addr, 0x40 :: pixelBytes s⟩] } ∧
      fbRead t 0 = 0x40 ∧ (∀ a, a ≠ 0 → fbRead t a = fbRead s a) ∧
      (pixelBytes s).length = s.cfg.width.toNat * s.cfg.pages.toNat

/-- 30_encoding.md R101, R102: what the sequencer does for a command word is the effect of the instruction the word decodes to. -/
def Obligations.SequencerPerformsDecodedCommands : Prop :=
  ∀ (w : CmdWord) (i : Instr) (s : State), decodeCommand w = some i → exec i s = .next (performWord w s)

/-! ## The step -/

/-- 10_state.md R42: a step takes the descriptor the host presents and runs the instruction it decodes to (the events of the host: log 1). -/
def Obligations.StepRunsPresentedOperation : Prop :=
  ∀ (s : State) (d : List Byte) (rest : List HostEvent) (i : Instr),
    s.blocked = false → s.sequencer = [] → s.host = .operation d :: rest → decodeDescriptor d = .ok i →
    step s = exec i { s with host := rest }

/-- 10_state.md R24, 44_controller.md R205, R215: a step of a running sequence runs its next command; once that is answered the sequence moves
on, and with the last command of an init sequence STATE becomes Ready. The sequencer field, and a step that runs one command of a
sequence, are the model's own (logs 7 and 8, DEDUCED and DESIGN CHOICE): a run from reset is between two commands only while blocked. -/
def Obligations.StepRunsSequencedCommand : Prop :=
  ∀ (s t : State) (w : CmdWord) (rest : List CmdWord) (i : Instr),
    s.blocked = false → s.sequencer = w :: rest → decodeCommand w = some i → exec i s = .next t →
    step s = .next (if t.blocked then t else
      { t with sequencer := rest, ctrl := if rest = [] ∧ t.ctrl = .initializing then .ready else t.ctrl })

/-- 60_exceptions.md R252, R257: a descriptor the decoder refuses leaves everything of the block as it was and the next event follows; the
model records the cause (its own record, log 2). -/
def Obligations.RefusedDescriptorChangesNothing : Prop :=
  ∀ (s : State) (d : List Byte) (rest : List HostEvent) (c : RefusalCause),
    s.blocked = false → s.sequencer = [] → s.host = .operation d :: rest → decodeDescriptor d = .error c →
    step s = .next { s with host := rest, refusals := s.refusals ++ [c] }

/-- 00_scope.md R5: the block does nothing on its own. That a step without an event is a step is the model's reading (log 17). -/
def Obligations.NothingHappensWithoutTheHost : Prop :=
  ∀ s : State, s.blocked = false → s.sequencer = [] → s.host = [] → step s = .next s

/-- 70_reset_and_hazards.md R280, R281, 10_state.md R45: a hardware reset, between operations or while the transport never answers, leaves STATE
Uninitialized, the port idle, no command running, `cfg` and the framebuffer unspecified, and OUT as it was: nothing is sent. That
unspecified means the free values of the next draw is the model's form (DESIGN CHOICE, logs 3 and 5), when a reset can come is its choice
(DESIGN CHOICE, log 12), and that OUT keeps its past is its reading (DEDUCED, log 21). -/
def Obligations.HardwareResetEvent : Prop :=
  ∀ (s : State) (rest : List HostEvent), (s.blocked = true ∨ s.sequencer = []) → s.host = .reset :: rest →
    ∃ t, step s = .next t ∧
      t = { s with
        host := rest, ctrl := .uninitialized, blocked := false, sequencer := [], cfg := t.cfg, fb := t.fb, draw := s.draw + 1 } ∧
      (∀ a, fbRead t a = Config.freeFb (s.draw + 1) a) ∧
      t.cfg.width = Config.freeWidth (s.draw + 1) ∧ t.cfg.height = Config.freeHeight (s.draw + 1) ∧
      t.cfg.pages = Config.freePages (s.draw + 1) ∧ t.cfg.addr = Config.freeAddr (s.draw + 1) ∧
      t.cfg.extVcc = Config.freeExtVcc (s.draw + 1)

/-- 70_reset_and_hazards.md R292: an init sequence whose transaction number `k` is never answered stops there: the transactions up to it
are in OUT and no later one, STATE stays Initializing, and from then on a step without a reset is the stuck state, a fault of the model's
own name (log 7). -/
def Obligations.UnansweredTransactionBlocksForEver : Prop :=
  ∀ (w h : Byte) (a : BitVec 7) (e : Bool) (s : State) (k : Nat) (before after : List TransportAnswer),
    s.ctrl = .uninitialized → geometryOk w h = true → s.blocked = false → k < 25 → before.length = k →
    (∀ r ∈ before, r ≠ .never) → s.transport = before ++ .never :: after →
    ∃ t, exec (.construct w h a e) s = .next t ∧ t.blocked = true ∧ t.ctrl = .initializing ∧ t.transport = after ∧
      t.host = s.host ∧
      t.out = s.out ++ (((initSequence h e).flatMap (wordBytes [])).take (k + 1)).map (fun b => ⟨a, b⟩) ∧
      (t.host.head? ≠ some .reset → step t = .fault .transportNeverAnswers)

/-- 70_reset_and_hazards.md R292, 44_controller.md R200, R210, R211, R212: the same of the other operations that emit. RENDER, SETCONTRAST and
SETINVERT stop at the transaction number `k` that is never answered: the transactions up to it are in OUT and no later one, STATE, `cfg`
and the pixel bytes stay, the control byte is 0x40 if the data transfer was handed over, and from then on a step without a reset is the
stuck state. The commands left and the fault's name are the model's (log 7). -/
def Obligations.UnansweredOperationBlocksForEver : Prop :=
  ∀ (level : Byte) (invert : Bool) (s : State) (k : Nat), s.ctrl = .ready → NeverAnswers s k →
    (k < 7 →
      BlocksAt .render s
        [[0x00, 0x22], [0x00, 0x00], [0x00, s.cfg.pages.setWidth 8 - 1], [0x00, 0x21], [0x00, 0x00], [0x00, s.cfg.width - 1],
          0x40 :: pixelBytes s]
        ((renderSequence s.cfg).drop (k / 3)) k) ∧
    (k < 2 → BlocksAt (.setContrast level) s [[0x00, 0x81], [0x00, level]] [.cmd1 0x81 level] k) ∧
    (k < 1 → BlocksAt (.setInvert invert) s [[0x00, if invert then 0xA7 else 0xA6]] [.cmd0 (if invert then 0xA7 else 0xA6)] k)

/-- 70_reset_and_hazards.md R292, 44_controller.md R200, R201, 30_encoding.md R101, R102: the same of every command and of the data transfer,
each with its own number of transactions. The fault's name and that the sequencer stays as it was are the model's (log 7). -/
def Obligations.UnansweredCommandBlocksForEver : Prop :=
  ∀ (w : CmdWord) (i : Instr) (s : State) (k : Nat), decodeCommand w = some i → NeverAnswers s k →
    k < (wordBytes (0x40 :: pixelBytes s) w).length →
    BlocksAt i s (wordBytes (0x40 :: pixelBytes s) w) s.sequencer k

/-- 10_state.md R45: the state right after reset; 10_state.md R21: the two-bit codes of STATE. The values of `cfg` are the model's choice (log 4)
and are not stated. -/
def Obligations.ResetState : Prop :=
  State.reset.ctrl = .uninitialized ∧ State.reset.out = [] ∧ State.reset.blocked = false ∧
  CtrlState.uninitialized.code = 0 ∧ CtrlState.initializing.code = 1 ∧ CtrlState.ready.code = 2

/-! ## Whole-machine rules -/

/-- 44_controller.md R214, R216 (c), 30_encoding.md R101, R102: every instruction the state accepts completes without being refused, and when
the transport answers (70_reset_and_hazards.md R292) it emits exactly its number of transactions: CONSTRUCT 25, RENDER 7, SETCONTRAST 2,
SETINVERT 1, the other operations none, a command 1 to 3 and the data transfer 1. That it is not refused is read off the model's record
(DESIGN CHOICE, log 2), and that a command is accepted in every STATE is the model's reading (DEDUCED, log 19). -/
def Obligations.AcceptedInstructionsComplete : Prop :=
  ∀ (i : Instr) (s : State), accepts s i = true →
    ∃ t, exec i s = .next t ∧ t.refusals = s.refusals ∧
      (s.blocked = false → Answers s → t.out.length = s.out.length + transactionCount i ∧ t.blocked = false)

/-- 10_state.md R41, 44_controller.md R216 (a), 20_memory.md R66: OUT only grows, at its end, and what a step emits is addressed to the ADDR the
state then holds. -/
def Obligations.OutOnlyGrowsAtCurrentAddress : Prop :=
  ∀ s t : State, step s = .next t → ∃ bs : List (List Byte), t.out = s.out ++ bs.map fun b => ⟨t.cfg.addr, b⟩

/-- 44_controller.md R216 (e), 20_memory.md R57: the drawing operations and CLEAR emit nothing and change nothing but the framebuffer (and,
refused, the model's record of refusals: DESIGN CHOICE, log 2); the device-facing operations and commands, CONSTRUCT and DESTROY excepted,
change no pixel byte and no configuration. What CONSTRUCT and DESTROY change is in ConstructOperation and DestroyOperation. -/
def Obligations.DrawingAndDeviceSidesAreSeparate : Prop :=
  ∀ (i : Instr) (s t : State), exec i s = .next t →
    (isDrawing i = true → t = { s with fb := t.fb, refusals := t.refusals }) ∧
    (isDrawing i = false → (∀ w h a e, i ≠ .construct w h a e) → i ≠ .destroy →
      t.cfg = s.cfg ∧ t.draw = s.draw ∧ ∀ a, a ≠ 0 → fbRead t a = fbRead s a)

/-- 10_state.md R22, 44_controller.md R213: `cfg` is written by CONSTRUCT, from its operands, and made unspecified by DESTROY; no other instruction
changes it. -/
def Obligations.CfgIsWrittenByConstructOnly : Prop :=
  ∀ (i : Instr) (s t : State), exec i s = .next t → t.cfg ≠ s.cfg →
    (∃ w h a e, i = .construct w h a e ∧ t.cfg = ⟨w, h, BitVec.ofNat 5 (h.toNat / 8), a, e⟩) ∨ i = .destroy

/-- 44_controller.md R215: the transitions of STATE. Leaving Uninitialized takes an accepted CONSTRUCT; Initializing becomes Ready with the
last command of the sequence; a return to Uninitialized takes DESTROY while Ready or a hardware reset; Initializing is seen between
steps only while the transport never answers. -/
def Obligations.StateTransitions : Prop :=
  ∀ s t : State, step s = .next t → s.ctrl ≠ t.ctrl →
    (s.ctrl = .uninitialized ∧ (t.ctrl = .ready ∨ (t.ctrl = .initializing ∧ t.blocked = true)) ∧
      ∃ d w h a e, s.host.head? = some (.operation d) ∧ decodeDescriptor d = .ok (.construct w h a e) ∧
        geometryOk w h = true) ∨
    (s.ctrl = .initializing ∧ t.ctrl = .ready ∧ s.sequencer.length = 1 ∧ t.sequencer = []) ∨
    (t.ctrl = .uninitialized ∧
      (s.host.head? = some .reset ∨ (s.ctrl = .ready ∧ s.host.head? = some (.operation [0x01]))))

/-- 20_memory.md R59 (marked derived there): every drawing operation and CLEAR is idempotent: done again it changes no byte. -/
def Obligations.DrawingIsIdempotent : Prop :=
  ∀ (i : Instr) (s t u : State), isDrawing i = true → exec i s = .next t → exec i t = .next u →
    ∀ a, fbRead u a = fbRead t a

/-- 20_memory.md R60 (marked derived there): which pixels a drawing operation touches, and what they become, does not depend on the old
content: from two contents of the framebuffer, a pixel either ends the same or was left alone in both. -/
def Obligations.DrawingIgnoresOldContent : Prop :=
  ∀ (i : Instr) (s t s' t' : State), isDrawing i = true → s' = { s with fb := s'.fb, draw := s'.draw } →
    exec i s = .next t → exec i s' = .next t' →
    ∀ x y, inBounds s.cfg x y = true →
      pixel t x y = pixel t' x y ∨ (pixel t x y = pixel s x y ∧ pixel t' x y = pixel s' x y)

/-- 44_controller.md R216 (f), 60_exceptions.md R251 (marked derived there): the transport's results never matter. Two runs of any number of
steps, from states that differ only in the answers to come, none of which is missing, end in states that differ only in the answers
still to come. -/
def Obligations.TransportResultsNeverMatter : Prop :=
  ∀ (n : Nat) (s t : State) (answers : List TransportAnswer),
    Answers s → (∀ r ∈ answers, r ≠ .never) → Sys2Proof.core.run n s = .next t →
    ∃ rest, Sys2Proof.core.run n { s with transport := answers } = .next { t with transport := rest }

/-- 44_controller.md R205, R210, 10_state.md R24: an operation that talks to the device is done in one step, and that equals doing its commands
one step at a time: sixteen steps for the init sequence of CONSTRUCT, three for RENDER. That one step is a whole operation, and that its
commands can be run one a step, is the model's reading (DEDUCED, log 8). -/
def Obligations.SequencesRunAtOnceOrStepByStep : Prop :=
  ∀ s : State, s.blocked = false → Answers s →
    (∀ w h a e, accepts s (.construct w h a e) = true →
      Sys2Proof.core.run 16 { beginConstruct w h a e s with sequencer := initSequence h e } = exec (.construct w h a e) s) ∧
    (s.ctrl = .ready → Sys2Proof.core.run 3 { s with sequencer := renderSequence s.cfg } = exec .render s)

/-- The invariant of the machine (`Inv`: 10_state.md R21, R22, R30, 30_encoding.md R103, 44_controller.md R216 (b)) is kept by every step from every
state that meets it. -/
def Obligations.StepKeepsInvariant : Prop :=
  ∀ s t : State, Inv s → step s = .next t → Inv t

/-- The state after reset meets the invariant. -/
def Obligations.ResetMeetsInvariant : Prop := Inv State.reset
end

