-- ==== Sys2Proof/Laws/Memory.lean ====
section
/-! SUPPORT. The framebuffer memory: a read after a write, the canonical form, equal contents are equal lists. -/

namespace Sys2Proof.Machine

@[simp] theorem memRead_nil (i : Nat) : memRead [] i = none := rfl

/-- A read of the index just written gives the value written. -/
@[simp] theorem memRead_memWrite_self (m : Memory) (i : Nat) (v : Byte) : memRead (memWrite m i v) i = some v := by
  induction m with
  | nil => simp [memWrite, memRead]
  | cons c rest ih =>
    obtain ⟨a, w⟩ := c
    simp only [memWrite]
    split
    · simp [memRead]
    · split
      · simp [memRead]
      · have : a ≠ i := by omega
        simp [memRead, this, ih]

/-- A write leaves every other index alone. -/
theorem memRead_memWrite_other (m : Memory) {i j : Nat} (v : Byte) (h : j ≠ i) :
    memRead (memWrite m i v) j = memRead m j := by
  induction m with
  | nil => simp [memWrite, memRead, h.symm]
  | cons c rest ih =>
    obtain ⟨a, w⟩ := c
    simp only [memWrite]
    split
    · simp [memRead, h.symm]
    · split
      · next hi => subst hi; simp [memRead, h.symm]
      · simp [memRead, ih]

/-- The indices listed after a write. -/
theorem mem_memWrite {m : Memory} {i : Nat} {v : Byte} {c : Host.Cell} (h : c ∈ memWrite m i v) :
    c = (i, v) ∨ c ∈ m := by
  induction m with
  | nil => simpa [memWrite] using h
  | cons d rest ih =>
    obtain ⟨a, w⟩ := d
    simp only [memWrite] at h
    split at h
    · simpa using h
    · split at h
      · simp only [List.mem_cons] at h ⊢; tauto
      · simp only [List.mem_cons] at h ⊢
        rcases h with h | h
        · exact .inr (.inl h)
        · rcases ih h with h | h
          · exact .inl h
          · exact .inr (.inr h)

/-- A write keeps the canonical form. -/
theorem memWrite_wf {m : Memory} (i : Nat) (v : Byte) (h : Memory.wf m) : Memory.wf (memWrite m i v) := by
  induction m with
  | nil => simp [memWrite]
  | cons d rest ih =>
    obtain ⟨a, w⟩ := d
    rw [Memory.wf, List.pairwise_cons] at h
    simp only [memWrite]
    split
    · next hlt =>
      simp only [Memory.wf, List.pairwise_cons, List.mem_cons]
      refine ⟨?_, h⟩
      rintro c (rfl | hc)
      · exact hlt
      · exact Nat.lt_trans hlt (h.1 c hc)
    · split
      · next heq => subst heq; simp only [Memory.wf, List.pairwise_cons]; exact h
      · simp only [Memory.wf, List.pairwise_cons]
        refine ⟨fun c hc => ?_, ih h.2⟩
        rcases mem_memWrite hc with rfl | hc
        · show a < i; omega
        · exact h.1 c hc

/-- A listed byte is read. -/
theorem memRead_of_mem {m : Memory} (hm : Memory.wf m) {a : Nat} {v : Byte} (h : (a, v) ∈ m) :
    memRead m a = some v := by
  induction m with
  | nil => simp at h
  | cons d rest ih =>
    obtain ⟨b, w⟩ := d
    rw [Memory.wf, List.pairwise_cons] at hm
    simp only [List.mem_cons, Prod.mk.injEq] at h
    rcases h with ⟨rfl, rfl⟩ | h
    · simp [memRead]
    · have hlt : b < a := hm.1 _ h
      have : b ≠ a := by omega
      simp [memRead, this, ih hm.2 h]

/-- A byte that is read is listed. -/
theorem mem_of_memRead {m : Memory} {a : Nat} {v : Byte} (h : memRead m a = some v) : (a, v) ∈ m := by
  induction m with
  | nil => simp at h
  | cons d rest ih =>
    obtain ⟨b, w⟩ := d
    simp only [memRead] at h
    split at h
    · next hb => subst hb; simp at h; simp [h]
    · exact List.mem_cons_of_mem _ (ih h)

/-- In the canonical form equal contents are equal lists. -/
theorem memory_ext {m n : Memory} (hm : Memory.wf m) (hn : Memory.wf n) (h : ∀ a, memRead m a = memRead n a) : m = n := by
  have nodup : ∀ {m : Memory}, Memory.wf m → m.Nodup := fun {m} hm =>
    hm.imp (fun hlt heq => by rw [heq] at hlt; exact absurd hlt (Nat.lt_irrefl _))
  have hperm : m.Perm n := by
    refine (List.perm_ext_iff_of_nodup (nodup hm) (nodup hn)).2 fun c => ?_
    obtain ⟨a, v⟩ := c
    constructor
    · intro hc; exact mem_of_memRead (by rw [← h]; exact memRead_of_mem hm hc)
    · intro hc; exact mem_of_memRead (by rw [h]; exact memRead_of_mem hn hc)
  refine hperm.eq_of_pairwise (le := fun c d => c.1 < d.1) ?_ hm hn
  intro a b _ _ hab hba
  exact absurd (Nat.lt_trans hab hba) (Nat.lt_irrefl _)

end Sys2Proof.Machine
end

