-- ==== Sys2Proof/Laws/State.lean ====
section
/-! SUPPORT. The fields of every plain update of State, true by rfl. -/

namespace Sys2Proof.Machine

@[simp] theorem fbWrite_ctrl (i : Nat) (v : Byte) (s : State) : (fbWrite i v s).ctrl = s.ctrl := rfl
@[simp] theorem fbWrite_cfg (i : Nat) (v : Byte) (s : State) : (fbWrite i v s).cfg = s.cfg := rfl
@[simp] theorem fbWrite_out (i : Nat) (v : Byte) (s : State) : (fbWrite i v s).out = s.out := rfl
@[simp] theorem fbWrite_blocked (i : Nat) (v : Byte) (s : State) : (fbWrite i v s).blocked = s.blocked := rfl
@[simp] theorem fbWrite_sequencer (i : Nat) (v : Byte) (s : State) : (fbWrite i v s).sequencer = s.sequencer := rfl
@[simp] theorem fbWrite_host (i : Nat) (v : Byte) (s : State) : (fbWrite i v s).host = s.host := rfl
@[simp] theorem fbWrite_transport (i : Nat) (v : Byte) (s : State) : (fbWrite i v s).transport = s.transport := rfl
@[simp] theorem fbWrite_refusals (i : Nat) (v : Byte) (s : State) : (fbWrite i v s).refusals = s.refusals := rfl
@[simp] theorem fbWrite_draw (i : Nat) (v : Byte) (s : State) : (fbWrite i v s).draw = s.draw := rfl
@[simp] theorem fbWrite_fb (i : Nat) (v : Byte) (s : State) : (fbWrite i v s).fb = memWrite s.fb i v := rfl

@[simp] theorem forget_ctrl (s : State) : (forget s).ctrl = s.ctrl := rfl
@[simp] theorem forget_out (s : State) : (forget s).out = s.out := rfl
@[simp] theorem forget_blocked (s : State) : (forget s).blocked = s.blocked := rfl
@[simp] theorem forget_sequencer (s : State) : (forget s).sequencer = s.sequencer := rfl
@[simp] theorem forget_host (s : State) : (forget s).host = s.host := rfl
@[simp] theorem forget_transport (s : State) : (forget s).transport = s.transport := rfl
@[simp] theorem forget_refusals (s : State) : (forget s).refusals = s.refusals := rfl
@[simp] theorem forget_fb (s : State) : (forget s).fb = [] := rfl
@[simp] theorem forget_draw (s : State) : (forget s).draw = s.draw + 1 := rfl

@[simp] theorem hardwareReset_ctrl (s : State) : (hardwareReset s).ctrl = .uninitialized := rfl
@[simp] theorem hardwareReset_blocked (s : State) : (hardwareReset s).blocked = false := rfl
@[simp] theorem hardwareReset_sequencer (s : State) : (hardwareReset s).sequencer = [] := rfl
@[simp] theorem hardwareReset_fb (s : State) : (hardwareReset s).fb = [] := rfl
@[simp] theorem hardwareReset_out (s : State) : (hardwareReset s).out = s.out := rfl
@[simp] theorem hardwareReset_host (s : State) : (hardwareReset s).host = s.host := rfl
@[simp] theorem hardwareReset_transport (s : State) : (hardwareReset s).transport = s.transport := rfl
@[simp] theorem hardwareReset_refusals (s : State) : (hardwareReset s).refusals = s.refusals := rfl
@[simp] theorem hardwareReset_draw (s : State) : (hardwareReset s).draw = s.draw + 1 := rfl

end Sys2Proof.Machine
end

