-- ==== Sys2Proof/Laws/Framebuffer.lean ====
section
/-! SUPPORT. The framebuffer operations: what a read sees after a write, a plot, a list of plots, a clear. -/

namespace Sys2Proof.Machine

@[simp] theorem fbRead_fbWrite_self (i : Nat) (v : Byte) (s : State) : fbRead (fbWrite i v s) i = v := by
  simp [fbRead]

theorem fbRead_fbWrite_other {i j : Nat} (v : Byte) (s : State) (h : j ≠ i) : fbRead (fbWrite i v s) j = fbRead s j := by
  simp [fbRead, memRead_memWrite_other _ _ h]

theorem fbRead_fbWrite (i j : Nat) (v : Byte) (s : State) :
    fbRead (fbWrite i v s) j = if j = i then v else fbRead s j := by
  split
  · next h => subst h; simp
  · next h => exact fbRead_fbWrite_other v s h

/-- Two states with the same framebuffer cells and the same draw read the same bytes. -/
theorem fbRead_congr {s t : State} (hf : t.fb = s.fb) (hd : t.draw = s.draw) (i : Nat) : fbRead t i = fbRead s i := by
  simp [fbRead, hf, hd]

/-- `plot` changes nothing but the framebuffer. -/
theorem plot_onlyFb (set : Bool) (x y : Int) (s : State) : OnlyFb s (plot set x y s) := by
  unfold OnlyFb plot; split <;> rfl

@[simp] theorem plot_cfg (set : Bool) (x y : Int) (s : State) : (plot set x y s).cfg = s.cfg := by
  rw [plot_onlyFb set x y s]

@[simp] theorem plot_draw (set : Bool) (x y : Int) (s : State) : (plot set x y s).draw = s.draw := by
  rw [plot_onlyFb set x y s]

/-- A plot out of bounds changes nothing (40_framebuffer.md R120, R121). -/
theorem plot_outOfBounds {s : State} {x y : Int} (set : Bool) (h : inBounds s.cfg x y = false) : plot set x y s = s := by
  simp [plot, h]

/-- What `plot` can do to a byte. -/
theorem fbRead_plot (set : Bool) (x y : Int) (s : State) (a : Nat) :
    fbRead (plot set x y s) a =
      if inBounds s.cfg x y = true ∧ a = pixelIndex s.cfg x y then applyMask set (pixelMask y) (fbRead s a)
      else fbRead s a := by
  unfold plot
  by_cases hb : inBounds s.cfg x y = true
  · simp only [hb, if_true, fbRead_fbWrite, true_and]
    split
    · next h => subst h; rfl
    · rfl
  · simp [hb]

/-- `plot` keeps the canonical form. -/
theorem plot_wf {s : State} (set : Bool) (x y : Int) (h : Memory.wf s.fb) : Memory.wf (plot set x y s).fb := by
  unfold plot; split
  · exact memWrite_wf _ _ h
  · exact h

theorem pixelBit_lt (y : Int) : pixelBit y < 8 := by
  simp only [pixelBit]; exact Nat.lt_of_le_of_lt Nat.and_le_right (by decide)

theorem pixelBit_eq_mod (y : Int) : pixelBit y = y.toNat % 8 := by
  simpa [pixelBit] using Nat.and_two_pow_sub_one_eq_mod y.toNat 3

theorem pixelIndex_eq (cfg : Cfg) (x y : Int) :
    pixelIndex cfg x y = 1 + cfg.width.toNat * (y.toNat / 8) + x.toNat := by
  simp [pixelIndex, Nat.shiftRight_eq_div_pow]

theorem inBounds_iff {cfg : Cfg} {x y : Int} :
    inBounds cfg x y = true ↔ 0 ≤ x ∧ x < cfg.width.toNat ∧ 0 ≤ y ∧ y < cfg.height.toNat := by
  simp [inBounds, and_assoc]

/-- The mask has exactly the pixel's bit. -/
theorem getLsbD_pixelMask (y : Int) {k : Nat} (hk : k < 8) : (pixelMask y).getLsbD k = decide (k = pixelBit y) := by
  have table : ∀ b < 8, ∀ k < 8, ((1 : Byte) <<< b).getLsbD k = decide (k = b) := by decide
  exact table _ (pixelBit_lt y) _ hk

/-- A bit of a masked byte. -/
theorem getLsbD_applyMask (set : Bool) (y : Int) (v : Byte) {k : Nat} (hk : k < 8) :
    (applyMask set (pixelMask y) v).getLsbD k = if k = pixelBit y then set else v.getLsbD k := by
  have hm := getLsbD_pixelMask y hk
  unfold applyMask
  cases set <;>
    simp only [Bool.false_eq_true, if_false, if_true, BitVec.getLsbD_or, BitVec.getLsbD_and, BitVec.getLsbD_not, hm, hk]
  all_goals by_cases h : k = pixelBit y <;> simp [h]

/-- Different in-bounds pixels have different addresses (20_memory.md R52): one byte index and one bit name one pixel. -/
theorem pixelAddress_injective {cfg : Cfg} {x y x' y' : Int} (h : inBounds cfg x y = true) (h' : inBounds cfg x' y' = true)
    (hi : pixelIndex cfg x y = pixelIndex cfg x' y') (hb : pixelBit y = pixelBit y') : x = x' ∧ y = y' := by
  rw [inBounds_iff] at h h'
  rw [pixelIndex_eq, pixelIndex_eq] at hi
  rw [pixelBit_eq_mod, pixelBit_eq_mod] at hb
  have hx : x.toNat < cfg.width.toNat := by omega
  have hx' : x'.toNat < cfg.width.toNat := by omega
  have hw : 0 < cfg.width.toNat := by omega
  have e : cfg.width.toNat * (y.toNat / 8) + x.toNat = cfg.width.toNat * (y'.toNat / 8) + x'.toNat := by omega
  have e1 : x.toNat = x'.toNat := by
    have := congrArg (· % cfg.width.toNat) e
    simpa [Nat.mul_add_mod, Nat.mod_eq_of_lt hx, Nat.mod_eq_of_lt hx'] using this
  have e2 : y.toNat / 8 = y'.toNat / 8 := by
    rw [e1] at e
    exact Nat.eq_of_mul_eq_mul_left hw (Nat.add_right_cancel e)
  omega

/-- What `plot` does to an in-bounds pixel. -/
theorem pixel_plot (set : Bool) (x y : Int) (s : State) {px py : Int} (hp : inBounds s.cfg px py = true) :
    pixel (plot set x y s) px py = if px = x ∧ py = y then set else pixel s px py := by
  unfold pixel
  rw [plot_cfg, fbRead_plot]
  by_cases hb : inBounds s.cfg x y = true
  · by_cases hi : pixelIndex s.cfg px py = pixelIndex s.cfg x y
    · simp only [hb, hi, and_self, if_true]
      rw [getLsbD_applyMask _ _ _ (pixelBit_lt py)]
      by_cases hbit : pixelBit py = pixelBit y
      · have := pixelAddress_injective hp hb hi hbit
        simp [this]
      · have : ¬ (px = x ∧ py = y) := fun h => hbit (by rw [h.2])
        simp [hbit, this]
    · have : ¬ (px = x ∧ py = y) := fun h => hi (by rw [h.1, h.2])
      simp [hb, hi, this]
  · have : ¬ (px = x ∧ py = y) := fun h => hb (by rw [← h.1, ← h.2]; exact hp)
    simp [hb, this]

theorem plotAll_nil (set : Bool) (s : State) : plotAll set [] s = s := rfl

theorem plotAll_cons (set : Bool) (p : Point) (ps : List Point) (s : State) :
    plotAll set (p :: ps) s = plotAll set ps (plot set p.1 p.2 s) := rfl

theorem plotAll_append (set : Bool) (ps qs : List Point) (s : State) :
    plotAll set (ps ++ qs) s = plotAll set qs (plotAll set ps s) := by
  simp [plotAll]

/-- `plotAll` changes nothing but the framebuffer. -/
theorem plotAll_onlyFb (set : Bool) (ps : List Point) (s : State) : OnlyFb s (plotAll set ps s) := by
  induction ps generalizing s with
  | nil => rfl
  | cons p ps ih =>
    have h1 := ih (plot set p.1 p.2 s)
    have h2 := plot_onlyFb set p.1 p.2 s
    rw [plotAll_cons]
    unfold OnlyFb at *
    rw [h1, h2]

/-- `plotAll` keeps the canonical form. -/
theorem plotAll_wf {s : State} (set : Bool) (ps : List Point) (h : Memory.wf s.fb) : Memory.wf (plotAll set ps s).fb := by
  induction ps generalizing s with
  | nil => exact h
  | cons p ps ih => exact ih (plot_wf set p.1 p.2 h)

/-- Everything `plotAll` does. -/
theorem plotAll_draws (set : Bool) (ps : List Point) (s : State) :
    Draws (fun x y => (x, y) ∈ ps) set s (plotAll set ps s) := by
  have main : ∀ x y, inBounds s.cfg x y = true →
      pixel (plotAll set ps s) x y = if (x, y) ∈ ps then set else pixel s x y := by
    induction ps generalizing s with
    | nil => intro x y _; simp [plotAll_nil]
    | cons p ps ih =>
      intro x y hxy
      rw [plotAll_cons, ih _ x y (by simpa using hxy), pixel_plot _ _ _ _ hxy]
      by_cases h1 : (x, y) ∈ ps
      · simp [h1]
      · by_cases h2 : x = p.1 ∧ y = p.2
        · have h3 : (x, y) ∈ p :: ps := by rw [show (x, y) = p from Prod.ext h2.1 h2.2]; exact List.mem_cons_self
          rw [if_neg h1, if_pos h2, if_pos h3]
        · have : (x, y) ≠ p := fun h => h2 ⟨by rw [← h], by rw [← h]⟩
          simp [h1, h2, this]
  refine ⟨plotAll_onlyFb set ps s, fun x y hxy => ⟨fun h => ?_, fun h => ?_⟩, ?_⟩
  · rw [main x y hxy, if_pos h]
  · rw [main x y hxy, if_neg h]
  · clear main
    induction ps generalizing s with
    | nil => intro a _; rfl
    | cons p ps ih =>
      intro a ha
      rw [plotAll_cons, ih _ a (fun x y hb hq => by
        simpa using ha x y (by simpa using hb) (List.mem_cons_of_mem _ hq)), fbRead_plot]
      rw [if_neg]
      rintro ⟨hb, rfl⟩
      exact ha p.1 p.2 hb List.mem_cons_self rfl

/-- A picture depends on its set of points only. -/
theorem draws_congr {P Q : Int → Int → Prop} {set : Bool} {s t : State} (h : ∀ x y, P x y ↔ Q x y) (hd : Draws P set s t) :
    Draws Q set s t := by
  have : P = Q := by funext x y; exact propext (h x y)
  exact this ▸ hd

/-- The bytes after writing zero to a range of indices. -/
theorem fbRead_clearRange (n : Nat) (s : State) (a : Nat) :
    fbRead ((List.range n).foldl (fun s i => fbWrite i 0x00 s) s) a = if a < n then 0 else fbRead s a := by
  induction n with
  | zero => simp
  | succ n ih =>
    simp only [List.range_succ, List.foldl_append, List.foldl_cons, List.foldl_nil, fbRead_fbWrite, ih]
    by_cases h : a = n
    · subst h; simp
    · by_cases h2 : a < n
      · have : a < n + 1 := by omega
        simp [h, h2, this]
      · have : ¬ a < n + 1 := by omega
        simp [h, h2, this]

/-- Writing zero to a range of indices changes nothing but the framebuffer. -/
theorem clearRange_onlyFb (l : List Nat) (s : State) : OnlyFb s (l.foldl (fun s i => fbWrite i 0x00 s) s) := by
  induction l generalizing s with
  | nil => rfl
  | cons i l ih =>
    have h := ih (fbWrite i 0x00 s)
    simp only [OnlyFb, List.foldl_cons] at *
    rw [h]; rfl

theorem clearRange_wf {s : State} (l : List Nat) (h : Memory.wf s.fb) :
    Memory.wf (l.foldl (fun s i => fbWrite i 0x00 s) s).fb := by
  induction l generalizing s with
  | nil => exact h
  | cons i l ih => exact ih (memWrite_wf _ _ h)

/-- Everything `clearAll` does to the bytes. -/
theorem fbRead_clearAll (s : State) (a : Nat) :
    fbRead (clearAll s) a = if a < fbLen s.cfg then 0 else fbRead s a := fbRead_clearRange _ _ _

theorem clearAll_onlyFb (s : State) : OnlyFb s (clearAll s) := clearRange_onlyFb _ _

theorem clearAll_wf {s : State} (h : Memory.wf s.fb) : Memory.wf (clearAll s).fb := clearRange_wf _ h

end Sys2Proof.Machine
end

