-- ==== Sys2Proof/Laws/Transport.lean ====
section
/-! SUPPORT. The transport and the controller's command sequences: what they do when the transport answers, and what they can do
at all. -/

namespace Sys2Proof.Machine

/-! ### An answered transaction -/

/-- `emit` when the transport answers. -/
theorem emit_answered {s : State} (hb : s.blocked = false) (ha : Answers s) (b : List Byte) :
    emit b s = { s with out := sent s [b], transport := s.transport.drop 1 } := by
  have hh : decide (s.transport.head? = some .never) = false := by
    simp only [decide_eq_false_iff_not]
    intro h
    exact ha .never (List.mem_of_mem_head? h) rfl
  simp [emit, hb, hh, sent]

theorem answers_drop {s t : State} {n : Nat} (ha : Answers s) (h : t.transport = s.transport.drop n) : Answers t := by
  intro a hat
  rw [h] at hat
  exact ha a (List.mem_of_mem_drop hat)

theorem sent_sent {s t : State} (h : t.cfg = s.cfg) (bs cs : List (List Byte)) (ho : t.out = sent s bs) :
    sent t cs = sent s (bs ++ cs) := by
  simp [sent, h, ho]

/-- A command without an argument when the transport answers (44_controller.md R201). -/
theorem command0_answered {s : State} (hb : s.blocked = false) (ha : Answers s) (op : Byte) :
    command0 op s = { s with out := sent s [[0x00, op]], transport := s.transport.drop 1 } := emit_answered hb ha _

/-- A command with one argument when the transport answers (44_controller.md R201). -/
theorem command1_answered {s : State} (hb : s.blocked = false) (ha : Answers s) (op a1 : Byte) :
    command1 op a1 s = { s with out := sent s [[0x00, op], [0x00, a1]], transport := s.transport.drop 2 } := by
  unfold command1
  rw [emit_answered hb ha, emit_answered (by simpa using hb) (answers_drop ha rfl)]
  simp [sent, Config.ctrlCmd]

/-- A command with two arguments when the transport answers (44_controller.md R201). -/
theorem command2_answered {s : State} (hb : s.blocked = false) (ha : Answers s) (op a1 a2 : Byte) :
    command2 op a1 a2 s =
      { s with out := sent s [[0x00, op], [0x00, a1], [0x00, a2]], transport := s.transport.drop 3 } := by
  have h := command1_answered hb ha op a1
  unfold command1 at h
  unfold command2
  rw [h, emit_answered (by simpa using hb) (answers_drop ha rfl)]
  simp [sent, Config.ctrlCmd]

/-- The data transfer when the transport answers (44_controller.md R210). -/
theorem dataTransfer_answered {s : State} (hb : s.blocked = false) (ha : Answers s) :
    dataTransfer s =
      { s with
        fb := memWrite s.fb 0 0x40
        out := sent s [fbBytes (fbWrite 0 0x40 s)]
        transport := s.transport.drop 1 } := by
  unfold dataTransfer
  rw [if_neg (by simp [hb]), emit_answered (by simpa using hb) (by simpa [Answers] using ha)]
  rfl

/-- The bytes of the data transfer: 0x40, then the pixel bytes (30_encoding.md R102). -/
theorem fbBytes_control (s : State) : fbBytes (fbWrite 0 0x40 s) = 0x40 :: pixelBytes s := by
  unfold fbBytes pixelBytes fbLen
  rw [fbWrite_cfg, List.range_succ_eq_map, List.map_cons, List.map_map, fbRead_fbWrite_self]
  congr 1
  refine List.map_congr_left fun k _ => ?_
  exact fbRead_fbWrite_other _ _ (by simp)

/-! ### A sequence of commands when the transport answers -/

/-- One command of a sequence, not the data transfer. -/
theorem performWord_answered {s : State} (hb : s.blocked = false) (ha : Answers s) {w : CmdWord} (hw : w ≠ .data)
    (frame : List Byte) :
    performWord w s =
      { s with out := sent s (wordBytes frame w), transport := s.transport.drop (wordBytes frame w).length } := by
  cases w with
  | cmd0 op => exact command0_answered hb ha op
  | cmd1 op a1 => exact command1_answered hb ha op a1
  | cmd2 op a1 a2 => exact command2_answered hb ha op a1 a2
  | data => exact absurd rfl hw

/-- The first command of a sequence, not the data transfer. -/
theorem runSequence_cons_answered {s : State} (hb : s.blocked = false) (ha : Answers s) {w : CmdWord} (hw : w ≠ .data)
    (frame : List Byte) (rest : List CmdWord) :
    runSequence (w :: rest) s =
      runSequence rest
        { s with
          sequencer := rest
          ctrl := if rest = [] ∧ s.ctrl = .initializing then .ready else s.ctrl
          out := sent s (wordBytes frame w)
          transport := s.transport.drop (wordBytes frame w).length } := by
  have hb' : ({ s with sequencer := w :: rest } : State).blocked = false := hb
  rw [runSequence, if_neg (by simp [hb]), performWord_answered hb' ha hw frame, advance, if_neg (by simp [hb])]
  simp [sent]

/-- A sequence without the data transfer, run to its end. -/
theorem runSequence_answered {ws : List CmdWord} (hne : ws ≠ []) (hws : ∀ w ∈ ws, w ≠ .data) (frame : List Byte) :
    ∀ {s : State}, s.blocked = false → Answers s →
    runSequence ws s =
      { s with
        sequencer := []
        ctrl := if s.ctrl = .initializing then .ready else s.ctrl
        out := sent s (ws.flatMap (wordBytes frame))
        transport := s.transport.drop (ws.flatMap (wordBytes frame)).length } := by
  induction ws with
  | nil => exact absurd rfl hne
  | cons w rest ih =>
    intro s hb ha
    rw [runSequence_cons_answered hb ha (hws w List.mem_cons_self) frame]
    by_cases hr : rest = []
    · subst hr; simp [runSequence]
    · rw [ih hr (fun v hv => hws v (List.mem_cons_of_mem _ hv)) (by simpa using hb) (answers_drop ha rfl)]
      simp [hr, sent, List.drop_drop]

/-- The data transfer as the last word of a sequence. -/
theorem runSequence_data_answered {s : State} (hb : s.blocked = false) (ha : Answers s) :
    runSequence [.data] s =
      { s with
        sequencer := []
        ctrl := if s.ctrl = .initializing then .ready else s.ctrl
        fb := memWrite s.fb 0 0x40
        out := sent s [0x40 :: pixelBytes s]
        transport := s.transport.drop 1 } := by
  have hb' : ({ s with sequencer := [CmdWord.data] } : State).blocked = false := hb
  rw [runSequence, if_neg (by simp [hb]), performWord, dataTransfer_answered hb' ha, advance, if_neg (by simp [hb]), runSequence]
  rw [show fbBytes (fbWrite 0 0x40 { s with sequencer := [CmdWord.data] }) = 0x40 :: pixelBytes s from fbBytes_control _]
  simp [sent]

/-! ### What they can do at all -/

theorem emit_blocked {s : State} (hb : s.blocked = true) (b : List Byte) : emit b s = s := by simp [emit, hb]

theorem runSequence_blocked {s : State} (hb : s.blocked = true) (ws : List CmdWord) : runSequence ws s = s := by
  cases ws with
  | nil => rfl
  | cons w rest => simp [runSequence, hb]

/-- A transaction the transport never answers is handed over, and the block waits (70_reset_and_hazards.md R292). -/
theorem emit_never {s : State} {rest : List TransportAnswer} (hb : s.blocked = false) (ht : s.transport = .never :: rest)
    (b : List Byte) : emit b s = { s with out := sent s [b], transport := rest, blocked := true } := by
  simp [emit, hb, ht, sent]

/-- The transaction that is never answered is handed over, and the block waits. -/
theorem emit_neverAnswers {s : State} (h : NeverAnswers s 0) (b : List Byte) :
    emit b s = { s with out := sent s [b], transport := s.transport.drop 1, blocked := true } := by
  obtain ⟨hb, _, ht⟩ := h
  match hh : s.transport with
  | [] => simp [hh] at ht
  | r :: rest =>
    rw [emit_never (rest := rest) hb (by simpa [hh] using ht)]
    simp

/-- A transaction before it is answered. -/
theorem emit_beforeNever {s : State} {k : Nat} (h : NeverAnswers s (k + 1)) (b : List Byte) :
    emit b s = { s with out := sent s [b], transport := s.transport.drop 1 } ∧ NeverAnswers (emit b s) k := by
  obtain ⟨hb, ha, ht⟩ := h
  match hh : s.transport with
  | [] => simp [hh] at ht
  | r :: rest =>
    have hr : r ≠ .never := ha r (by simp [hh])
    have e : emit b s = { s with out := sent s [b], transport := rest } := by simp [emit, hb, hh, hr, sent]
    refine ⟨by rw [e]; rfl, ?_⟩
    rw [e]
    exact ⟨hb, fun q hq => ha q (by simp [hh]; right; exact hq), by simpa [hh] using ht⟩

/-- A command word one of whose transactions is never answered: those up to it are handed over. -/
theorem performWord_neverAnswers {s : State} {k : Nat} (h : NeverAnswers s k) (w : CmdWord)
    (hk : k < (wordBytes (0x40 :: pixelBytes s) w).length) :
    performWord w s =
      { s with
        fb := if w = .data then memWrite s.fb 0 0x40 else s.fb
        out := sent s ((wordBytes (0x40 :: pixelBytes s) w).take (k + 1))
        blocked := true
        transport := s.transport.drop (k + 1) } := by
  cases w with
  | cmd0 op =>
    simp [wordBytes] at hk; subst hk
    exact emit_neverAnswers h _
  | cmd1 op a =>
    simp [wordBytes] at hk
    rcases (by omega : k = 0 ∨ k = 1) with rfl | rfl
    · show emit _ (emit _ s) = _
      rw [emit_neverAnswers h, emit_blocked rfl]; rfl
    · obtain ⟨e, n⟩ := emit_beforeNever h [0x00, op]
      show emit _ (emit [0x00, op] s) = _
      rw [emit_neverAnswers n, e]; simp [sent, wordBytes, Config.ctrlCmd]
  | cmd2 op a b =>
    simp [wordBytes] at hk
    rcases (by omega : k = 0 ∨ k = 1 ∨ k = 2) with rfl | rfl | rfl
    · show emit _ (emit _ (emit _ s)) = _
      rw [emit_neverAnswers h, emit_blocked rfl, emit_blocked rfl]; rfl
    · obtain ⟨e, n⟩ := emit_beforeNever h [0x00, op]
      show emit _ (emit _ (emit [0x00, op] s)) = _
      rw [emit_neverAnswers n, emit_blocked rfl, e]; simp [sent, wordBytes, Config.ctrlCmd]
    · obtain ⟨e, n⟩ := emit_beforeNever h [0x00, op]
      obtain ⟨e', n'⟩ := emit_beforeNever n [0x00, a]
      show emit _ (emit [0x00, a] (emit [0x00, op] s)) = _
      rw [emit_neverAnswers n', e', e]; simp [sent, wordBytes, Config.ctrlCmd]
  | data =>
    simp [wordBytes] at hk; subst hk
    simp only [performWord, dataTransfer, if_neg (show ¬ s.blocked = true by simp [h.1])]
    rw [emit_neverAnswers (s := fbWrite 0 Config.ctrlData s) h, show fbBytes (fbWrite 0 Config.ctrlData s) = 0x40 :: pixelBytes s from fbBytes_control s]
    simp [wordBytes, sent]; rfl

/-- A command word all of whose transactions come before the one that is never answered. -/
theorem performWord_beforeNever {s : State} {k : Nat} {w : CmdWord} (hw : w ≠ .data)
    (h : NeverAnswers s ((wordBytes [] w).length + k)) :
    performWord w s = { s with out := sent s (wordBytes [] w), transport := s.transport.drop (wordBytes [] w).length } ∧
      NeverAnswers (performWord w s) k := by
  cases w with
  | cmd0 op =>
    rw [show (wordBytes [] (.cmd0 op)).length + k = k+1 by simp [wordBytes]; omega] at h
    exact emit_beforeNever h _
  | cmd1 op a =>
    rw [show (wordBytes [] (.cmd1 op a)).length + k = k+1+1 by simp [wordBytes]; omega] at h
    obtain ⟨e, n⟩ := emit_beforeNever h [0x00, op]
    obtain ⟨e', n'⟩ := emit_beforeNever n [0x00, a]
    refine ⟨?_, n'⟩
    show emit [0x00, a] (emit [0x00, op] s) = _
    rw [e', e]; simp [sent, wordBytes]
  | cmd2 op a b =>
    rw [show (wordBytes [] (.cmd2 op a b)).length + k = k+1+1+1 by simp [wordBytes]; omega] at h
    obtain ⟨e, n⟩ := emit_beforeNever h [0x00, op]
    obtain ⟨e', n'⟩ := emit_beforeNever n [0x00, a]
    obtain ⟨e'', n''⟩ := emit_beforeNever n' [0x00, b]
    refine ⟨?_, n''⟩
    show emit [0x00, b] (emit [0x00, a] (emit [0x00, op] s)) = _
    rw [e'', e', e]; simp [sent, wordBytes]
  | data => exact absurd rfl hw

/-- A sequence whose first command has the transaction that is never answered: it stops there, with nothing of the sequence done. -/
theorem runSequence_neverAnswers {w : CmdWord} {rest : List CmdWord} {s : State} {k : Nat} (h : NeverAnswers s k)
    (hk : k < (wordBytes (0x40 :: pixelBytes s) w).length) :
    runSequence (w :: rest) s =
      { s with
        fb := if w = .data then memWrite s.fb 0 0x40 else s.fb
        out := sent s ((wordBytes (0x40 :: pixelBytes s) w).take (k + 1))
        blocked := true
        transport := s.transport.drop (k + 1)
        sequencer := w :: rest } := by
  have h' : NeverAnswers { s with sequencer := w :: rest } k := h
  rw [runSequence, if_neg (by simp [h.1]), performWord_neverAnswers h' w hk, advance, if_pos rfl, runSequence_blocked rfl]
  rfl

/-- The frame of everything the controller does toward the device: OUT grows by command byte writes and by the framebuffer's own data
transfer, the control byte may become 0x40, the port and the answers to come move on; the sequencer and STATE are said apart. -/
structure Sends (s t : State) : Prop where
  cfg : t.cfg = s.cfg
  host : t.host = s.host
  refusals : t.refusals = s.refusals
  draw : t.draw = s.draw
  fb : t.fb = s.fb ∨ t.fb = memWrite s.fb 0 0x40
  out : ∃ bs, t.out = sent s bs ∧ ∀ b ∈ bs, (∃ p, b = [0x00, p]) ∨ b = 0x40 :: pixelBytes s

/-- Under the frame no pixel byte changes. -/
theorem Sends.fbRead {s t : State} (h : Sends s t) {a : Nat} (ha : a ≠ 0) : fbRead t a = Machine.fbRead s a := by
  rcases h.fb with hf | hf
  · exact fbRead_congr hf h.draw a
  · simp [Machine.fbRead, hf, h.draw, memRead_memWrite_other _ _ ha]

theorem Sends.pixelBytes {s t : State} (h : Sends s t) : pixelBytes t = Sys2Proof.pixelBytes s := by
  unfold Sys2Proof.pixelBytes
  rw [h.cfg]
  exact List.map_congr_left fun k _ => h.fbRead (by simp)

theorem Sends.refl (s : State) : Sends s s := ⟨rfl, rfl, rfl, rfl, .inl rfl, [], by simp [sent], by simp⟩

/-- Writing a byte twice is writing it once. -/
theorem memWrite_memWrite_self (m : Memory) (i : Nat) (v : Byte) : memWrite (memWrite m i v) i v = memWrite m i v := by
  induction m with
  | nil => simp [memWrite]
  | cons c rest ih =>
    obtain ⟨a, w⟩ := c
    by_cases h1 : i < a
    · simp [memWrite, h1]
    · by_cases h2 : i = a
      · simp [memWrite, h2]
      · simp [memWrite, h1, h2, ih]

theorem Sends.trans {s t u : State} (h : Sends s t) (k : Sends t u) : Sends s u := by
  obtain ⟨bs, ho, hb⟩ := h.out
  obtain ⟨cs, ko, kc⟩ := k.out
  refine ⟨k.cfg.trans h.cfg, k.host.trans h.host, k.refusals.trans h.refusals, k.draw.trans h.draw, ?_, bs ++ cs, ?_, ?_⟩
  · rcases k.fb with e | e <;> rcases h.fb with d | d <;> rw [e, d]
    · exact .inl rfl
    · exact .inr rfl
    · exact .inr rfl
    · exact .inr (memWrite_memWrite_self _ _ _)
  · rw [ko, sent_sent h.cfg bs cs ho]
  · intro b hm
    rcases List.mem_append.1 hm with hm | hm
    · exact hb b hm
    · rcases kc b hm with hp | hp
      · exact .inl hp
      · exact .inr (by rw [hp, h.pixelBytes])

/-- Everything `emit` of a command byte can do. -/
theorem emit_sends (p : Byte) (s : State) :
    Sends s (emit [0x00, p] s) ∧ (emit [0x00, p] s).ctrl = s.ctrl ∧ (emit [0x00, p] s).sequencer = s.sequencer := by
  unfold emit
  split
  · exact ⟨.refl s, rfl, rfl⟩
  · exact ⟨⟨rfl, rfl, rfl, rfl, .inl rfl, [[0x00, p]], by simp [sent], by simp⟩, rfl, rfl⟩

/-- Everything the controller can do for one command word. -/
theorem performWord_sends (w : CmdWord) (s : State) :
    Sends s (performWord w s) ∧ (performWord w s).ctrl = s.ctrl ∧ (performWord w s).sequencer = s.sequencer := by
  cases w with
  | cmd0 op => exact emit_sends op s
  | cmd1 op a1 =>
    obtain ⟨h, hc, hs⟩ := emit_sends op s
    obtain ⟨k, kc, ks⟩ := emit_sends a1 (emit [0x00, op] s)
    exact ⟨h.trans k, kc.trans hc, ks.trans hs⟩
  | cmd2 op a1 a2 =>
    obtain ⟨h, hc, hs⟩ := emit_sends op s
    obtain ⟨k, kc, ks⟩ := emit_sends a1 (emit [0x00, op] s)
    obtain ⟨l, lc, ls⟩ := emit_sends a2 (emit [0x00, a1] (emit [0x00, op] s))
    exact ⟨(h.trans k).trans l, (lc.trans kc).trans hc, (ls.trans ks).trans hs⟩
  | data =>
    by_cases hb : s.blocked = true
    · simp only [performWord, dataTransfer, hb, if_true]
      exact ⟨.refl s, trivial, trivial⟩
    · have hb' : ¬ (fbWrite 0 Config.ctrlData s).blocked = true := hb
      simp only [performWord, dataTransfer, if_neg hb, emit, if_neg hb']
      refine ⟨⟨rfl, rfl, rfl, rfl, .inr rfl, [0x40 :: pixelBytes s], ?_, by simp⟩, rfl, rfl⟩
      have : fbBytes (fbWrite 0 Config.ctrlData s) = 0x40 :: pixelBytes s := fbBytes_control s
      simp [sent, this]

/-- Everything the sequencer's move to the next command can do. -/
theorem advance_sends (rest : List CmdWord) (s : State) :
    Sends s (advance rest s) ∧ (advance rest s).blocked = s.blocked ∧
      (s.blocked = false →
        (advance rest s).sequencer = rest ∧
        (advance rest s).ctrl = if rest = [] ∧ s.ctrl = .initializing then .ready else s.ctrl) ∧
      (s.blocked = true → advance rest s = s) := by
  unfold advance
  cases hb : s.blocked
  · exact ⟨⟨rfl, rfl, rfl, rfl, .inl rfl, [], by simp [sent], by simp⟩, rfl, fun _ => ⟨rfl, rfl⟩, by simp⟩
  · simp only [if_true]
    exact ⟨.refl s, hb, by simp, fun _ => trivial⟩

/-- Everything a sequence of commands can do. Not blocked at its end it is complete: nothing is left, and an init sequence made the block
Ready. Blocked, it stopped in a command of the sequence, which is the first one left. -/
theorem runSequence_sends (ws : List CmdWord) :
    ∀ s : State, s.blocked = false →
      Sends s (runSequence ws s) ∧
      ((runSequence ws s).blocked = false → ws ≠ [] →
        (runSequence ws s).sequencer = [] ∧
        (runSequence ws s).ctrl = if s.ctrl = .initializing then .ready else s.ctrl) ∧
      ((runSequence ws s).blocked = true →
        (∃ done w rest, ws = done ++ w :: rest ∧ (runSequence ws s).sequencer = w :: rest) ∧
        (runSequence ws s).ctrl = s.ctrl) := by
  induction ws with
  | nil => intro s hb; exact ⟨.refl s, fun _ h => absurd rfl h, fun h => by simp [runSequence, hb] at h⟩
  | cons w rest ih =>
    intro s hb
    obtain ⟨pS, pC, pQ⟩ := performWord_sends w { s with sequencer := w :: rest }
    obtain ⟨aS, aB, aN, aK⟩ := advance_sends rest (performWord w { s with sequencer := w :: rest })
    have e : runSequence (w :: rest) s = runSequence rest (advance rest (performWord w { s with sequencer := w :: rest })) := by
      rw [runSequence, if_neg (by simp [hb])]
    have load : Sends s { s with sequencer := w :: rest } :=
      ⟨rfl, rfl, rfl, rfl, .inl rfl, [], by simp [sent], by simp⟩
    rw [e]
    generalize performWord w { s with sequencer := w :: rest } = p at *
    cases hp : p.blocked with
    | true =>
      rw [aK hp, runSequence_blocked hp]
      exact ⟨load.trans pS, by simp [hp], fun _ => ⟨⟨[], w, rest, rfl, pQ⟩, pC⟩⟩
    | false =>
      obtain ⟨aSeq, aCtrl⟩ := aN hp
      obtain ⟨iS, iN, iB⟩ := ih (advance rest p) (aB.trans hp)
      refine ⟨(load.trans pS).trans (aS.trans iS), fun hf _ => ?_, fun hf => ?_⟩
      · by_cases hr : rest = []
        · subst hr
          simp only [runSequence] at hf ⊢
          refine ⟨aSeq, ?_⟩
          rw [aCtrl, pC]; simp
        · obtain ⟨q, c⟩ := iN hf hr
          refine ⟨q, ?_⟩
          rw [c, aCtrl, pC]; simp [hr]
      · obtain ⟨⟨done, v, r, h1, h2⟩, h3⟩ := iB hf
        refine ⟨⟨w :: done, v, r, by simp [h1], h2⟩, ?_⟩
        have hr : rest ≠ [] := by simp [h1]
        rw [h3, aCtrl, pC]; simp [hr]

end Sys2Proof.Machine
end

