-- ==== Sys2Proof/Laws/Exec.lean ====
section
/-! SUPPORT. What an instruction can be: the shapes of the meanings, and what a step can be. -/

namespace Sys2Proof.Machine

/-- The drawing operations and CLEAR (isDrawing): a list of plots or a clear, while Ready. -/
theorem exec_drawing {i : Instr} (hd : isDrawing i = true) :
    (∃ set ps, ∀ s, exec i s = whenReady (plotAll set ps) s) ∨ (∀ s, exec i s = whenReady clearAll s) := by
  cases i with
  | clear => exact .inr fun _ => rfl
  | setPixel x y => exact .inl ⟨true, [(coord x, coord y)], fun _ => rfl⟩
  | clearPixel x y => exact .inl ⟨false, [(coord x, coord y)], fun _ => rfl⟩
  | drawLine => exact .inl ⟨_, _, fun _ => rfl⟩
  | drawBox x y w h filled set => cases filled <;> exact .inl ⟨_, _, fun _ => rfl⟩
  | drawChar => exact .inl ⟨_, _, fun _ => rfl⟩
  | drawText => exact .inl ⟨_, _, fun _ => rfl⟩
  | _ => exact absurd hd (by simp [isDrawing])

/-- The other instructions: CONSTRUCT, DESTROY, a sequence of commands while Ready, or one command. -/
theorem exec_device {i : Instr} (hd : isDrawing i = false) :
    (∃ w h a e, i = .construct w h a e) ∨ i = .destroy ∨
    (isOperation i = true ∧ ∃ ws : Cfg → List CmdWord,
      (∀ cfg, ws cfg ≠ [] ∧ ∀ w ∈ ws cfg, (decodeCommand w).isSome = true) ∧
      ∀ s, exec i s = whenReady (fun s => runSequence (ws s.cfg) s) s) ∨
    (isOperation i = false ∧ ∃ w, decodeCommand w = some i ∧ ∀ s, exec i s = .next (performWord w s)) := by
  cases i with
  | construct w h a e => exact .inl ⟨w, h, a, e, rfl⟩
  | destroy => exact .inr (.inl rfl)
  | render => exact .inr (.inr (.inl ⟨rfl, renderSequence, fun cfg => ⟨by simp [renderSequence], by simp [renderSequence]; exact ⟨rfl, rfl, rfl⟩⟩,
      fun _ => rfl⟩))
  | setContrast level => exact .inr (.inr (.inl ⟨rfl, fun _ => [.cmd1 0x81 level], fun _ => ⟨by simp, by simp; rfl⟩, fun _ => rfl⟩))
  | setInvert invert => exact .inr (.inr (.inl ⟨rfl, fun _ => [.cmd0 (displayModeOp invert)],
      fun _ => ⟨by simp, by cases invert <;> simp <;> rfl⟩, fun _ => rfl⟩))
  | clear => exact absurd hd (by simp [isDrawing])
  | setPixel => exact absurd hd (by simp [isDrawing])
  | clearPixel => exact absurd hd (by simp [isDrawing])
  | drawLine => exact absurd hd (by simp [isDrawing])
  | drawBox => exact absurd hd (by simp [isDrawing])
  | drawChar => exact absurd hd (by simp [isDrawing])
  | drawText => exact absurd hd (by simp [isDrawing])
  | cmdMemoryMode a1 => exact .inr (.inr (.inr ⟨rfl, .cmd1 0x20 a1, rfl, fun _ => rfl⟩))
  | cmdColumnAddr a1 a2 => exact .inr (.inr (.inr ⟨rfl, .cmd2 0x21 a1 a2, rfl, fun _ => rfl⟩))
  | cmdPageAddr a1 a2 => exact .inr (.inr (.inr ⟨rfl, .cmd2 0x22 a1 a2, rfl, fun _ => rfl⟩))
  | cmdSetStartLine => exact .inr (.inr (.inr ⟨rfl, .cmd0 0x40, rfl, fun _ => rfl⟩))
  | cmdSetContrast a1 => exact .inr (.inr (.inr ⟨rfl, .cmd1 0x81 a1, rfl, fun _ => rfl⟩))
  | cmdChargePump a1 => exact .inr (.inr (.inr ⟨rfl, .cmd1 0x8D a1, rfl, fun _ => rfl⟩))
  | cmdSegRemap => exact .inr (.inr (.inr ⟨rfl, .cmd0 0xA1, rfl, fun _ => rfl⟩))
  | cmdDisplayAllOn => exact .inr (.inr (.inr ⟨rfl, .cmd0 0xA4, rfl, fun _ => rfl⟩))
  | cmdNormalDisplay => exact .inr (.inr (.inr ⟨rfl, .cmd0 0xA6, rfl, fun _ => rfl⟩))
  | cmdInvertDisplay => exact .inr (.inr (.inr ⟨rfl, .cmd0 0xA7, rfl, fun _ => rfl⟩))
  | cmdSetMultiplex a1 => exact .inr (.inr (.inr ⟨rfl, .cmd1 0xA8 a1, rfl, fun _ => rfl⟩))
  | cmdDisplayOff => exact .inr (.inr (.inr ⟨rfl, .cmd0 0xAE, rfl, fun _ => rfl⟩))
  | cmdDisplayOn => exact .inr (.inr (.inr ⟨rfl, .cmd0 0xAF, rfl, fun _ => rfl⟩))
  | cmdComScanDec => exact .inr (.inr (.inr ⟨rfl, .cmd0 0xC8, rfl, fun _ => rfl⟩))
  | cmdSetDisplayOffset a1 => exact .inr (.inr (.inr ⟨rfl, .cmd1 0xD3 a1, rfl, fun _ => rfl⟩))
  | cmdSetDisplayClockDiv a1 => exact .inr (.inr (.inr ⟨rfl, .cmd1 0xD5 a1, rfl, fun _ => rfl⟩))
  | cmdSetPrecharge a1 => exact .inr (.inr (.inr ⟨rfl, .cmd1 0xD9 a1, rfl, fun _ => rfl⟩))
  | cmdSetComPins a1 => exact .inr (.inr (.inr ⟨rfl, .cmd1 0xDA a1, rfl, fun _ => rfl⟩))
  | cmdSetVcomDetect a1 => exact .inr (.inr (.inr ⟨rfl, .cmd1 0xDB a1, rfl, fun _ => rfl⟩))
  | cmdData => exact .inr (.inr (.inr ⟨rfl, .data, rfl, fun _ => rfl⟩))

/-- The words of the init sequence are commands (44_controller.md R205). -/
theorem initSequence_known (h : Byte) (e : Bool) :
    initSequence h e ≠ [] ∧ ∀ w ∈ initSequence h e, (decodeCommand w).isSome = true := by
  refine ⟨by simp [initSequence], ?_⟩
  simp only [initSequence, List.mem_cons, List.not_mem_nil, or_false]
  rintro w (rfl | rfl | rfl | rfl | rfl | rfl | rfl | rfl | rfl | rfl | rfl | rfl | rfl | rfl | rfl | rfl) <;> rfl

/-- What CONSTRUCT can be: refused for its state, refused for its geometry, or begun and its init sequence run. -/
theorem execConstruct_cases (w h : Byte) (a : BitVec 7) (e : Bool) (s : State) :
    (s.ctrl ≠ .uninitialized ∧ execConstruct w h a e s = refuse .wrongState s) ∨
    (s.ctrl = .uninitialized ∧ geometryOk w h = false ∧ execConstruct w h a e s = refuse .badGeometry s) ∨
    (s.ctrl = .uninitialized ∧ geometryOk w h = true ∧
      execConstruct w h a e s = .next (runSequence (initSequence h e) (beginConstruct w h a e s))) := by
  unfold execConstruct
  by_cases hc : s.ctrl = .uninitialized
  · cases hg : geometryOk w h
    · exact .inr (.inl ⟨hc, rfl, by simp [hc]⟩)
    · exact .inr (.inr ⟨hc, rfl, by simp [hc]⟩)
  · exact .inl ⟨hc, by simp [hc]⟩

/-- What a gated operation can be. -/
theorem whenReady_cases (f : State → State) (s : State) :
    (s.ctrl = .ready ∧ whenReady f s = .next (f s)) ∨ (s.ctrl ≠ .ready ∧ whenReady f s = refuse .wrongState s) := by
  by_cases hc : s.ctrl = .ready <;> simp [whenReady, hc]

/-- Blocked, and no reset comes next: the stuck state (70_reset_and_hazards.md R292). -/
theorem step_stuck {s : State} (hb : s.blocked = true) (h : s.host.head? ≠ some .reset) :
    step s = .fault .transportNeverAnswers := by
  unfold step fetch
  rw [if_pos hb]
  match hh : s.host with
  | [] => rfl
  | .reset :: _ => simp [hh] at h
  | .operation _ :: _ => rfl

/-- What a step that goes on can be. -/
theorem step_cases {s t : State} (h : step s = .next t) :
    (s.blocked = true ∧ ∃ rest, s.host = .reset :: rest ∧ t = hardwareReset { s with host := rest }) ∨
    (s.blocked = false ∧
      ((∃ w rest i u, s.sequencer = w :: rest ∧ decodeCommand w = some i ∧ exec i s = .next u ∧ t = advance rest u) ∨
      (s.sequencer = [] ∧
        ((s.host = [] ∧ t = s) ∨
        (∃ rest, s.host = .reset :: rest ∧ t = hardwareReset { s with host := rest }) ∨
        (∃ d rest i, s.host = .operation d :: rest ∧ decodeDescriptor d = .ok i ∧ exec i { s with host := rest } = .next t) ∨
        (∃ d rest c, s.host = .operation d :: rest ∧ decodeDescriptor d = .error c ∧
          t = { s with host := rest, refusals := s.refusals ++ [c] }))))) := by
  unfold step fetch at h
  cases hb : s.blocked
  · rw [hb] at h
    refine .inr ⟨rfl, ?_⟩
    cases hs : s.sequencer with
    | cons w rest =>
      rw [hs] at h
      cases hd : decodeCommand w with
      | none => simp [hd] at h
      | some i =>
        simp only [hd, Bool.false_eq_true, if_false] at h
        cases he : exec i s with
        | next u => rw [he] at h; exact .inl ⟨w, rest, i, u, rfl, hd, he, by simpa [afterCommand] using h.symm⟩
        | fault r => rw [he] at h; simp [afterCommand] at h
        | refused r => rw [he] at h; simp [afterCommand] at h
    | nil =>
      rw [hs] at h
      refine .inr ⟨rfl, ?_⟩
      match hh : s.host with
      | [] => rw [hh] at h; exact .inl ⟨rfl, by simpa using h.symm⟩
      | .reset :: rest => rw [hh] at h; exact .inr (.inl ⟨rest, rfl, by simpa using h.symm⟩)
      | .operation d :: rest =>
        rw [hh] at h
        cases hd : decodeDescriptor d with
        | ok i => simp only [hd, Bool.false_eq_true, if_false] at h; exact .inr (.inr (.inl ⟨d, rest, i, rfl, hd, h⟩))
        | error c =>
          simp only [hd, Bool.false_eq_true, if_false, refuse, Host.Outcome.next.injEq] at h
          exact .inr (.inr (.inr ⟨d, rest, c, rfl, hd, h.symm⟩))
  · rw [hb] at h
    refine .inl ⟨rfl, ?_⟩
    match hh : s.host with
    | [] => simp [hh] at h
    | .reset :: rest => rw [hh] at h; exact ⟨rest, rfl, by simpa using h.symm⟩
    | .operation d :: rest => simp [hh] at h

end Sys2Proof.Machine
end

