-- ==== Sys2Proof/Laws/PerInstr.lean ====
section
/-! SUPPORT. Family TableRow: each instruction's encoding begins with the byte of its row of spec/opcode_table.json and has the length
the row's format gives it (30_encoding.md R80, R83 to R92, R100 to R102). -/

namespace Sys2Proof.Laws.TableRow

/-- The bytes of an encoded instruction that the table counts: a descriptor's bytes, a command's payload bytes, the control byte of the
data transfer. -/
def codeBytes : Code → List Byte
  | .operation d => d
  | .command (.cmd0 op) => [op]
  | .command (.cmd1 op a1) => [op, a1]
  | .command (.cmd2 op a1 a2) => [op, a1, a2]
  | .command .data => [Config.ctrlData]

/-- The `match` byte of the instruction's row. -/
def rowByte : Instr → Byte
  | .construct _ _ _ _ => 0x00
  | .destroy => 0x01
  | .clear => 0x02
  | .render => 0x03
  | .setContrast _ => 0x04
  | .setInvert _ => 0x05
  | .setPixel _ _ => 0x06
  | .clearPixel _ _ => 0x07
  | .drawLine _ _ _ _ _ => 0x08
  | .drawBox _ _ _ _ _ _ => 0x09
  | .drawChar _ _ _ _ => 0x0A
  | .drawText _ _ _ _ => 0x0B
  | .cmdMemoryMode _ => 0x20
  | .cmdColumnAddr _ _ => 0x21
  | .cmdPageAddr _ _ => 0x22
  | .cmdSetStartLine => 0x40
  | .cmdSetContrast _ => 0x81
  | .cmdChargePump _ => 0x8D
  | .cmdSegRemap => 0xA1
  | .cmdDisplayAllOn => 0xA4
  | .cmdNormalDisplay => 0xA6
  | .cmdInvertDisplay => 0xA7
  | .cmdSetMultiplex _ => 0xA8
  | .cmdDisplayOff => 0xAE
  | .cmdDisplayOn => 0xAF
  | .cmdComScanDec => 0xC8
  | .cmdSetDisplayOffset _ => 0xD3
  | .cmdSetDisplayClockDiv _ => 0xD5
  | .cmdSetPrecharge _ => 0xD9
  | .cmdSetComPins _ => 0xDA
  | .cmdSetVcomDetect _ => 0xDB
  | .cmdData => 0x40

/-- The number of bytes the row's format gives the instruction: the descriptor's length, or the opcode and its arguments. -/
def rowLength : Instr → Nat
  | .construct _ _ _ _ => 5
  | .destroy => 1
  | .clear => 1
  | .render => 1
  | .setContrast _ => 2
  | .setInvert _ => 2
  | .setPixel _ _ => 5
  | .clearPixel _ _ => 5
  | .drawLine _ _ _ _ _ => 10
  | .drawBox _ _ _ _ _ _ => 10
  | .drawChar _ _ _ _ => 7
  | .drawText _ _ _ text => 7 + text.length
  | .cmdMemoryMode _ => 2
  | .cmdColumnAddr _ _ => 3
  | .cmdPageAddr _ _ => 3
  | .cmdSetStartLine => 1
  | .cmdSetContrast _ => 2
  | .cmdChargePump _ => 2
  | .cmdSegRemap => 1
  | .cmdDisplayAllOn => 1
  | .cmdNormalDisplay => 1
  | .cmdInvertDisplay => 1
  | .cmdSetMultiplex _ => 2
  | .cmdDisplayOff => 1
  | .cmdDisplayOn => 1
  | .cmdComScanDec => 1
  | .cmdSetDisplayOffset _ => 2
  | .cmdSetDisplayClockDiv _ => 2
  | .cmdSetPrecharge _ => 2
  | .cmdSetComPins _ => 2
  | .cmdSetVcomDetect _ => 2
  | .cmdData => 1

/-- The encoding agrees with the instruction's row: first byte and length. -/
def Statement (i : Instr) : Prop :=
  (codeBytes (encode i)).head? = some (rowByte i) ∧ (codeBytes (encode i)).length = rowLength i

theorem construct (w h : Byte) (a : BitVec 7) (e : Bool) : Statement (.construct w h a e) := ⟨rfl, rfl⟩
theorem destroy : Statement .destroy := ⟨rfl, rfl⟩
theorem clear : Statement .clear := ⟨rfl, rfl⟩
theorem render : Statement .render := ⟨rfl, rfl⟩
theorem setContrast (l : Byte) : Statement (.setContrast l) := ⟨rfl, rfl⟩
theorem setInvert (b : Bool) : Statement (.setInvert b) := ⟨rfl, rfl⟩
theorem setPixel (x y : S16) : Statement (.setPixel x y) := ⟨rfl, rfl⟩
theorem clearPixel (x y : S16) : Statement (.clearPixel x y) := ⟨rfl, rfl⟩
theorem drawLine (x1 y1 x2 y2 : S16) (s : Bool) : Statement (.drawLine x1 y1 x2 y2 s) := ⟨rfl, rfl⟩
theorem drawBox (x y w h : S16) (f s : Bool) : Statement (.drawBox x y w h f s) := ⟨rfl, rfl⟩
theorem drawChar (x y : S16) (c : Byte) (s : Bool) : Statement (.drawChar x y c s) := ⟨rfl, rfl⟩
theorem drawText (x y : S16) (s : Bool) (text : List Byte) : Statement (.drawText x y s text) := ⟨rfl, by simp [codeBytes, encode, rowLength]; omega⟩
theorem cmdMemoryMode (a1 : Byte) : Statement (.cmdMemoryMode a1) := ⟨rfl, rfl⟩
theorem cmdColumnAddr (a1 a2 : Byte) : Statement (.cmdColumnAddr a1 a2) := ⟨rfl, rfl⟩
theorem cmdPageAddr (a1 a2 : Byte) : Statement (.cmdPageAddr a1 a2) := ⟨rfl, rfl⟩
theorem cmdSetStartLine : Statement .cmdSetStartLine := ⟨rfl, rfl⟩
theorem cmdSetContrast (a1 : Byte) : Statement (.cmdSetContrast a1) := ⟨rfl, rfl⟩
theorem cmdChargePump (a1 : Byte) : Statement (.cmdChargePump a1) := ⟨rfl, rfl⟩
theorem cmdSegRemap : Statement .cmdSegRemap := ⟨rfl, rfl⟩
theorem cmdDisplayAllOn : Statement .cmdDisplayAllOn := ⟨rfl, rfl⟩
theorem cmdNormalDisplay : Statement .cmdNormalDisplay := ⟨rfl, rfl⟩
theorem cmdInvertDisplay : Statement .cmdInvertDisplay := ⟨rfl, rfl⟩
theorem cmdSetMultiplex (a1 : Byte) : Statement (.cmdSetMultiplex a1) := ⟨rfl, rfl⟩
theorem cmdDisplayOff : Statement .cmdDisplayOff := ⟨rfl, rfl⟩
theorem cmdDisplayOn : Statement .cmdDisplayOn := ⟨rfl, rfl⟩
theorem cmdComScanDec : Statement .cmdComScanDec := ⟨rfl, rfl⟩
theorem cmdSetDisplayOffset (a1 : Byte) : Statement (.cmdSetDisplayOffset a1) := ⟨rfl, rfl⟩
theorem cmdSetDisplayClockDiv (a1 : Byte) : Statement (.cmdSetDisplayClockDiv a1) := ⟨rfl, rfl⟩
theorem cmdSetPrecharge (a1 : Byte) : Statement (.cmdSetPrecharge a1) := ⟨rfl, rfl⟩
theorem cmdSetComPins (a1 : Byte) : Statement (.cmdSetComPins a1) := ⟨rfl, rfl⟩
theorem cmdSetVcomDetect (a1 : Byte) : Statement (.cmdSetVcomDetect a1) := ⟨rfl, rfl⟩
theorem cmdData : Statement .cmdData := ⟨rfl, rfl⟩

end Sys2Proof.Laws.TableRow
end

