-- ==== Sys2Proof/Tests/Slice0.lean ====
section
/-! SUPPORT. The package's own tests: expected results from the worked encodings (30_encoding.md R95), the test vectors of
95_test_vectors.md (FB-, LN-, BX-, GL-, CT-, RF-) and the rules; then, for every obligation with hypotheses, a state and operands that meet
them. -/

namespace Sys2Proof.Tests

open Machine

/-- A Ready display of the given geometry, control byte 0x00 and every pixel byte `v` (95_test_vectors.md, conventions). -/
def display (w h v : Byte) : State :=
  { State.reset with
    ctrl := .ready
    cfg := cfgOf w h 0x3C false
    fb := (0, 0) :: (List.range (w.toNat * (h.toNat / 8))).map fun k => (k + 1, v) }

/-- 8 by 8, all clear. -/
def clear8 : State := display 8 8 0x00

/-- 128 by 32, the two bytes of FB-2 and FB-3 clear and the others never written. -/
def wide : State := { clear8 with cfg := cfgOf 128 32 0x3C false, fb := [(134, 0x00), (512, 0x00)] }

/-- The framebuffer dump after a next state. -/
def dump : Host.Outcome State Fault Refusal → Option (List Byte)
  | .next t => some (fbBytes t)
  | _ => none

/-- What a next state has sent. -/
def trace : Host.Outcome State Fault Refusal → Option (List (List Byte))
  | .next t => some (t.out.map fun x => x.bytes)
  | _ => none

/-- A projection of a next state. -/
def after {α : Type} (f : State → α) : Host.Outcome State Fault Refusal → Option α
  | .next t => some (f t)
  | _ => none

/-- The example glyph patterns of 95_test_vectors.md (not the real font). -/
def exampleA (c : Nat) : BitVec 7 := [0x3F, 0x48, 0x48, 0x48, 0x3F].getD c 0
def exampleB (c : Nat) : BitVec 7 := [0x7F, 0x49, 0x49, 0x49, 0x36].getD c 0

/-! ### Well-formedness (30_encoding.md R84, R92, R93) -/

theorem test_wellFormed_width_zero : wellFormed (.construct 0 8 0x3C false) = false := by decide
theorem test_wellFormed_height_zero : wellFormed (.construct 8 0 0x3C false) = false := by decide
theorem test_wellFormed_height_multiple : wellFormed (.construct 8 12 0x3C false) = false := by decide
theorem test_wellFormed_height_255 : wellFormed (.construct 8 255 0x3C false) = false := by decide
theorem test_wellFormed_text_too_long : wellFormed (.drawText 0 0 true (List.replicate 256 0x41)) = false := by
  rw [wellFormed, List.length_replicate]; decide
theorem test_wellFormed_largest : wellFormed (.construct 255 248 0x7F true) = true := by decide

/-! ### Decoding (words written out from 30_encoding.md R80 to R102) -/

/-- R83 and R95; the two values of a flag and the largest level. -/
theorem test_decode_operations :
    decodeDescriptor [0x01] = .ok .destroy ∧ decodeDescriptor [0x02] = .ok .clear ∧ decodeDescriptor [0x03] = .ok .render ∧
    decodeDescriptor [0x06, 0x7F, 0x00, 0x1F, 0x00] = .ok (.setPixel 127 31) ∧
    decodeDescriptor [0x09, 0x00, 0x00, 0x00, 0x00, 0x04, 0x00, 0x04, 0x00, 0x01] = .ok (.drawBox 0 0 4 4 false true) ∧
    decodeDescriptor [0x05, 0x00] = .ok (.setInvert false) ∧ decodeDescriptor [0x04, 0xFF] = .ok (.setContrast 255) :=
  ⟨rfl, rfl, rfl, rfl, rfl, rfl, rfl⟩

/-- R95, the other formats, each operand a different value. -/
theorem test_decode_operands :
    decodeDescriptor [0x00, 0x80, 0x40, 0x3D, 0x01] = .ok (.construct 128 64 0x3D true) ∧
    decodeDescriptor [0x07, 0xFE, 0xFF, 0x2C, 0x01] = .ok (.clearPixel (-2) 300) ∧
    decodeDescriptor [0x08, 0x01, 0x00, 0x02, 0x00, 0x03, 0x00, 0xFF, 0xFF, 0x00] = .ok (.drawLine 1 2 3 (-1) false) ∧
    decodeDescriptor [0x09, 0x01, 0x00, 0x02, 0x00, 0x03, 0x00, 0x04, 0x01, 0x02] = .ok (.drawBox 1 2 3 260 true false) ∧
    decodeDescriptor [0x0A, 0x06, 0x00, 0x05, 0x00, 0x42, 0x01] = .ok (.drawChar 6 5 0x42 true) ∧
    decodeDescriptor [0x0B, 0x07, 0x00, 0x08, 0x00, 0x00, 0x02, 0x41, 0x42] = .ok (.drawText 7 8 false [0x41, 0x42]) :=
  ⟨rfl, rfl, rfl, rfl, rfl, rfl⟩

/-- R100: the commands without an argument, and R102's data transfer. -/
theorem test_decode_commands0 :
    decodeCommand (.cmd0 0x40) = some .cmdSetStartLine ∧ decodeCommand (.cmd0 0xA1) = some .cmdSegRemap ∧
    decodeCommand (.cmd0 0xA4) = some .cmdDisplayAllOn ∧ decodeCommand (.cmd0 0xA6) = some .cmdNormalDisplay ∧
    decodeCommand (.cmd0 0xA7) = some .cmdInvertDisplay ∧ decodeCommand (.cmd0 0xAE) = some .cmdDisplayOff ∧
    decodeCommand (.cmd0 0xAF) = some .cmdDisplayOn ∧ decodeCommand (.cmd0 0xC8) = some .cmdComScanDec ∧
    decodeCommand .data = some .cmdData := by decide

/-- R100: the commands with arguments. -/
theorem test_decode_commands1 :
    decodeCommand (.cmd1 0x20 0x02) = some (.cmdMemoryMode 0x02) ∧ decodeCommand (.cmd1 0x81 0xFF) = some (.cmdSetContrast 0xFF) ∧
    decodeCommand (.cmd1 0x8D 0x14) = some (.cmdChargePump 0x14) ∧ decodeCommand (.cmd1 0xA8 0x1F) = some (.cmdSetMultiplex 0x1F) ∧
    decodeCommand (.cmd1 0xD3 0x00) = some (.cmdSetDisplayOffset 0x00) ∧
    decodeCommand (.cmd1 0xD5 0x80) = some (.cmdSetDisplayClockDiv 0x80) ∧
    decodeCommand (.cmd1 0xD9 0xF1) = some (.cmdSetPrecharge 0xF1) ∧ decodeCommand (.cmd1 0xDA 0x12) = some (.cmdSetComPins 0x12) ∧
    decodeCommand (.cmd1 0xDB 0x40) = some (.cmdSetVcomDetect 0x40) ∧
    decodeCommand (.cmd2 0x21 0x00 0x7F) = some (.cmdColumnAddr 0x00 0x7F) ∧
    decodeCommand (.cmd2 0x22 0x00 0x03) = some (.cmdPageAddr 0x00 0x03) := by decide

/-- R103: a known opcode with another arity, and an unknown one. -/
theorem test_decode_command_refused :
    decodeCommand (.cmd0 0xA5) = none ∧ decodeCommand (.cmd0 0x81) = none ∧ decodeCommand (.cmd2 0x81 0 0) = none := by decide

/-- RF-1 to RF-7. -/
theorem test_decode_refused :
    decodeDescriptor [0x0C] = .error .reservedOpcode ∧ decodeDescriptor [0xFF, 0x00, 0x00] = .error .reservedOpcode ∧
    decodeDescriptor [0x06, 0x01, 0x00, 0x02] = .error .wrongLength ∧
    decodeDescriptor [0x0B, 0x00, 0x00, 0x00, 0x00, 0x01, 0x02, 0x41] = .error .wrongLength ∧
    decodeDescriptor [0x05, 0x02] = .error .reservedBit ∧
    decodeDescriptor [0x09, 0x00, 0x00, 0x00, 0x00, 0x04, 0x00, 0x04, 0x00, 0x04] = .error .reservedBit ∧
    decodeDescriptor [0x00, 0x80, 0x20, 0xBC, 0x00] = .error .reservedBit := ⟨rfl, rfl, rfl, rfl, rfl, rfl, rfl⟩

/-- The numbering of spec/opcode_table.json: rows of eight bits, and a descriptor and a command given whole. -/
theorem test_tableWord :
    decodeTableWord 8 0x06 = some (.setPixel 0 0) ∧ decodeTableWord 40 0x001F007F06 = some (.setPixel 127 31) ∧
    decodeTableWord 8 0x0B = some (.drawText 0 0 false []) ∧ decodeTableWord 8 0x40 = some .cmdSetStartLine ∧
    decodeTableWord 16 0x1FA8 = some (.cmdSetMultiplex 0x1F) ∧ decodeTableWord 8 0x0C = none := by decide

/-- A table word runs as the first instruction after reset: CONSTRUCT and CMD.DISPLAYOFF. -/
theorem test_withFetchWord :
    after State.ctrl (step (State.reset.withFetchWord 40 0x003C080800)) = some .ready ∧
    trace (step (State.reset.withFetchWord 8 0xAE)) = some [[0x00, 0xAE]] := by decide

/-! ### Framebuffer (FB-) -/

/-- FB-3 and FB-2. -/
theorem test_setPixel_address :
    after State.fb (exec (.setPixel 5 10) wide) = some [(134, 0x04), (512, 0x00)] ∧
    after State.fb (exec (.setPixel 127 31) wide) = some [(134, 0x00), (512, 0x80)] := by decide

/-- FB-9 and 40_framebuffer.md R123: the first coordinates out of bounds. -/
theorem test_setPixel_outside :
    exec (.setPixel (-1) 0) clear8 = .next clear8 ∧ exec (.setPixel 8 0) clear8 = .next clear8 ∧
    exec (.setPixel 0 8) clear8 = .next clear8 := ⟨rfl, rfl, rfl⟩

/-- FB-6. -/
theorem test_clearPixel : 
    after State.fb (exec (.clearPixel 5 10) { wide with fb := [(134, 0xFF)] }) = some [(134, 0xFB)] := by decide

/-- RF-14, FB-10: out of bounds is a no-op, not a refusal. -/
theorem test_clearPixel_outside : exec (.clearPixel (-2) 300) (display 8 8 0xFF) = .next (display 8 8 0xFF) := rfl

/-- FB-13. -/
theorem test_clear :
    dump (exec .clear { clear8 with
      fb := [(0, 0x40), (1, 0xFF), (2, 0x81), (3, 0x81), (4, 0x81), (5, 0x81), (6, 0x81), (7, 0x81), (8, 0xFF)] }) =
    some [0, 0, 0, 0, 0, 0, 0, 0, 0] := by decide

/-! ### Lines (LN-) -/

/-- LN-9, a steep line going up. -/
theorem test_drawLine_steep :
    dump (exec (.drawLine 2 6 5 0 true) clear8) = some [0x00, 0x00, 0x00, 0x40, 0x30, 0x0C, 0x03, 0x00, 0x00] := by decide

/-- LN-10, the first two points are out of bounds; LN-15, clearing. -/
theorem test_drawLine_clip_and_clear :
    dump (exec (.drawLine (-2) 1 3 3 true) clear8) = some [0x00, 0x04, 0x04, 0x08, 0x08, 0x00, 0x00, 0x00, 0x00] ∧
    dump (exec (.drawLine 0 0 7 7 false) (display 8 8 0xFF)) =
      some [0x00, 0xFE, 0xFD, 0xFB, 0xF7, 0xEF, 0xDF, 0xBF, 0x7F] := by decide

/-! ### Boxes (BX-) -/

/-- BX-4, clearing an outline; BX-8, negative width and height. -/
theorem test_drawBox_outline :
    dump (exec (.drawBox 1 1 3 2 false false) (display 8 8 0xFF)) =
      some [0x00, 0xFF, 0xF1, 0xF5, 0xF5, 0xF1, 0xFF, 0xFF, 0xFF] ∧
    dump (exec (.drawBox 4 4 (-2) (-3) false true) clear8) =
      some [0x00, 0x00, 0x00, 0x1E, 0x12, 0x1E, 0x00, 0x00, 0x00] := by decide +kernel

/-- BX-3, filled mode ignores `set`; BX-9, negative height draws nothing; BX-10, negative width draws. -/
theorem test_drawBox_filled :
    dump (exec (.drawBox 1 1 2 1 true false) clear8) = some [0x00, 0x00, 0x06, 0x06, 0x06, 0x00, 0x00, 0x00, 0x00] ∧
    exec (.drawBox 4 4 2 (-1) true true) clear8 = .next clear8 ∧
    dump (exec (.drawBox 4 4 (-2) 1 true true) clear8) =
      some [0x00, 0x00, 0x00, 0x30, 0x30, 0x30, 0x00, 0x00, 0x00] := by
  refine ⟨by decide, rfl, by decide⟩

/-! ### Glyphs (GL-); the Glyph ROM is a constant without a body, so the example patterns are given to the cell itself -/

/-- GL-1 and GL-3, clipped at the right and the bottom. -/
theorem test_glyph_set :
    fbBytes (plotAll true (glyphPoints exampleA 0 0) clear8) = [0x00, 0x7E, 0x09, 0x09, 0x09, 0x7E, 0x00, 0x00, 0x00] ∧
    fbBytes (plotAll true (glyphPoints exampleA 5 3) clear8) = [0x00, 0x00, 0x00, 0x00, 0x00, 0x00, 0xF0, 0x48, 0x48] := by
  decide +kernel

/-- GL-4, clearing; GL-10, above the display. -/
theorem test_glyph_clear_and_above :
    fbBytes (plotAll false (glyphPoints exampleA 0 0) (display 8 8 0xFF)) =
      [0x00, 0x81, 0xF6, 0xF6, 0xF6, 0x81, 0xFF, 0xFF, 0xFF] ∧
    fbBytes (plotAll true (glyphPoints exampleB 0 (-2)) clear8) = [0x00, 0x1F, 0x12, 0x12, 0x12, 0x0D, 0x00, 0x00, 0x00] := by
  decide +kernel

/-- GL-13 and 43_glyph_text.md R180: the boundary codes. -/
theorem test_glyphIndex :
    [0x00, 0x1F, 0x20, 0x41, 0x7E, 0x7F, 0x80, 0xFF].map glyphIndex = [95, 95, 0, 33, 94, 95, 95, 95] := by decide

/-- GL-6's shape: two cells, six columns apart. -/
theorem test_drawText_advance :
    textPoints 0 0 [0x41, 0x42] = glyphPoints (glyph 0x41) 0 0 ++ (glyphPoints (glyph 0x42) 6 0 ++ []) := rfl

/-- GL-12. -/
theorem test_drawText_empty : exec (.drawText 3 3 true []) clear8 = .next clear8 := rfl

/-! ### Controller (CT-, RF-) -/

/-- CT-3 and CT-4: 25 transactions, the smallest and the largest multiplex argument. -/
theorem test_construct :
    (trace (exec (.construct 1 8 0x00 false) State.reset)).map (fun o => (o.length, o.getD 3 [], o.getD 4 [])) =
      some (25, [0x00, 0xA8], [0x00, 0x07]) ∧
    (trace (exec (.construct 255 248 0x7F true) State.reset)).map (fun o => (o.length, o.getD 3 [], o.getD 4 [])) =
      some (25, [0x00, 0xA8], [0x00, 0xF7]) := by decide

/-- CT-4: FB_LEN = 7906, PAGES = 31, ADDR = 0x7F. -/
theorem test_construct_cfg :
    after (fun t => (t.ctrl, t.cfg, fbLen t.cfg)) (exec (.construct 255 248 0x7F true) State.reset) =
      some (.ready, ⟨255, 248, 31, 0x7F, true⟩, 7906) := by decide

/-- RF-8, RF-9, RF-13: bad geometry, and the state is looked at first. -/
theorem test_construct_refused :
    after State.refusals (exec (.construct 10 12 0x3C false) State.reset) = some [.badGeometry] ∧
    after State.refusals (exec (.construct 0 8 0x3C false) State.reset) = some [.badGeometry] ∧
    after State.refusals (exec (.construct 10 12 0x3C false) clear8) = some [.wrongState] := by decide

/-- CT-6. -/
theorem test_render :
    trace (exec .render (display 1 8 0xA5)) =
      some [[0x00, 0x22], [0x00, 0x00], [0x00, 0x00], [0x00, 0x21], [0x00, 0x00], [0x00, 0x00], [0x40, 0xA5]] ∧
    dump (exec .render (display 1 8 0xA5)) = some [0x40, 0xA5] := by decide

/-- CT-8. -/
theorem test_setContrast : trace (exec (.setContrast 0x7F) clear8) = some [[0x00, 0x81], [0x00, 0x7F]] := by decide

/-- CT-9. -/
theorem test_setInvert :
    trace (exec (.setInvert true) clear8) = some [[0x00, 0xA7]] ∧ trace (exec (.setInvert false) clear8) = some [[0x00, 0xA6]] := by
  decide

/-- CT-10, RF-12. -/
theorem test_destroy :
    after (fun t => (t.ctrl, t.out)) (exec .destroy clear8) = some (.uninitialized, []) ∧
    after State.refusals (exec .destroy State.reset) = some [.wrongState] := by decide

/-- RF-10: a drawing operation with nothing constructed. -/
theorem test_refused_wrong_state : after State.refusals (exec (.setPixel 0 0) State.reset) = some [.wrongState] := by decide

/-- CT-11: every transaction fails, and the trace is the same; 92 D9. -/
theorem test_transport_failure :
    trace (exec (.setContrast 0x7F) { clear8 with transport := [.failed, .written 1] }) = some [[0x00, 0x81], [0x00, 0x7F]] := by
  decide

/-- 70_reset_and_hazards.md R292: the first byte of a command is never answered; the second is not sent and the port is stuck. -/
theorem test_transport_never :
    after (fun t => (t.blocked, t.sequencer, t.out.length)) (exec (.setContrast 0x7F) { clear8 with transport := [.never] }) =
      some (true, [.cmd1 0x81 0x7F], 1) := by decide

/-! ### Device commands (30_encoding.md R101, the arguments of 95_test_vectors.md CT-1 and S-7) -/

theorem test_commands0 :
    trace (exec .cmdSetStartLine clear8) = some [[0x00, 0x40]] ∧ trace (exec .cmdSegRemap clear8) = some [[0x00, 0xA1]] ∧
    trace (exec .cmdDisplayAllOn clear8) = some [[0x00, 0xA4]] ∧ trace (exec .cmdNormalDisplay clear8) = some [[0x00, 0xA6]] ∧
    trace (exec .cmdInvertDisplay clear8) = some [[0x00, 0xA7]] ∧ trace (exec .cmdDisplayOff clear8) = some [[0x00, 0xAE]] ∧
    trace (exec .cmdDisplayOn clear8) = some [[0x00, 0xAF]] ∧ trace (exec .cmdComScanDec clear8) = some [[0x00, 0xC8]] := by decide

theorem test_commands1 :
    trace (exec (.cmdMemoryMode 0x02) clear8) = some [[0x00, 0x20], [0x00, 0x02]] ∧
    trace (exec (.cmdSetContrast 0xFF) clear8) = some [[0x00, 0x81], [0x00, 0xFF]] ∧
    trace (exec (.cmdChargePump 0x14) clear8) = some [[0x00, 0x8D], [0x00, 0x14]] ∧
    trace (exec (.cmdSetMultiplex 0x1F) clear8) = some [[0x00, 0xA8], [0x00, 0x1F]] ∧
    trace (exec (.cmdSetDisplayOffset 0x00) clear8) = some [[0x00, 0xD3], [0x00, 0x00]] ∧
    trace (exec (.cmdSetDisplayClockDiv 0x80) clear8) = some [[0x00, 0xD5], [0x00, 0x80]] ∧
    trace (exec (.cmdSetPrecharge 0xF1) clear8) = some [[0x00, 0xD9], [0x00, 0xF1]] ∧
    trace (exec (.cmdSetComPins 0x12) clear8) = some [[0x00, 0xDA], [0x00, 0x12]] ∧
    trace (exec (.cmdSetVcomDetect 0x40) clear8) = some [[0x00, 0xDB], [0x00, 0x40]] := by decide

theorem test_commands2 :
    trace (exec (.cmdColumnAddr 0x00 0x7F) clear8) = some [[0x00, 0x21], [0x00, 0x00], [0x00, 0x7F]] ∧
    trace (exec (.cmdPageAddr 0x00 0x03) clear8) = some [[0x00, 0x22], [0x00, 0x00], [0x00, 0x03]] := by decide

theorem test_commandData : trace (exec .cmdData (display 2 8 0xA5)) = some [[0x40, 0xA5, 0xA5]] := by decide

/-! ### Witnesses: a state and operands that meet the hypotheses of each obligation that has some -/

/-- A state with the host about to present a descriptor. -/
def presenting (s : State) (d : List Byte) : State := { s with host := [.operation d] }

/-- A state with failing answers to come. -/
def failing (s : State) : State := { s with transport := [.failed, .written 0] }

/-- The state left by an init sequence whose last command is running. -/
def lastInit : State := { clear8 with ctrl := .initializing, sequencer := [.cmd0 0xAF] }

theorem witness_DecodeInvertsEncode :
    wellFormed (.construct 1 8 0x00 false) = true ∧ wellFormed (.construct 255 248 0x7F true) = true ∧
    wellFormed (.drawText (-32768) 32767 true (List.replicate 255 0x41)) = true := 
  ⟨by decide, by decide, by rw [wellFormed, List.length_replicate]; decide⟩

theorem witness_EncodeInvertsDecode :
    decode (.operation [0x00, 0xFF, 0xF8, 0x7F, 0x01]) = .ok (.construct 255 248 0x7F true) ∧
    decode (.command (.cmd2 0x22 0x00 0x03)) = .ok (.cmdPageAddr 0x00 0x03) := ⟨rfl, rfl⟩

theorem witness_ReservedOpcodesAreRefused : 0x0C ≤ (0x0C : Byte).toNat ∧ 0x0C ≤ (0xFF : Byte).toNat := by decide

theorem witness_LengthIsCheckedExactly : (0x00 : Byte).toNat ≤ 0x0B ∧ (0x0B : Byte).toNat ≤ 0x0B := by decide

theorem witness_ReservedBitsAreRefused :
    (0x02 : Byte).toNat ≥ 2 ∧ (List.replicate 255 (0x41 : Byte)).length ≤ 255 ∧ (0x04 : Byte).toNat ≥ 4 ∧ (0x80 : Byte).toNat ≥ 0x80 := by
  exact ⟨by decide, by rw [List.length_replicate], by decide, by decide⟩

theorem witness_PixelAddressIsBijection :
    CfgLegal (cfgOf 255 248 0x3C false) ∧ CfgLegal (cfgOf 1 8 0x3C false) ∧ inBounds (cfgOf 255 248 0x3C false) 254 247 = true ∧
    inBounds (cfgOf 255 248 0x3C false) 0 0 = true ∧
    pixelIndex (cfgOf 255 248 0x3C false) 254 247 = 7905 ∧ 7905 ≤ (255 : Byte).toNat * (31 : BitVec 5).toNat := by decide

theorem witness_ready_and_uninitialized :
    clear8.ctrl = .ready ∧ State.reset.ctrl = .uninitialized ∧ clear8.blocked = false ∧ Answers (failing clear8) := by decide

/-- SetPixelOperation, ClearPixelOperation: both branches of the bounds check; ClearOperation: both branches of the index. -/
theorem witness_PixelOperations :
    clear8.ctrl = .ready ∧ State.reset.ctrl = .uninitialized ∧ inBounds clear8.cfg (7 : S16).toInt (7 : S16).toInt = true ∧
    inBounds clear8.cfg (8 : S16).toInt (0 : S16).toInt = false ∧ 8 < clear8.cfg.width.toNat * clear8.cfg.pages.toNat + 1 ∧
    ¬ 9 < clear8.cfg.width.toNat * clear8.cfg.pages.toNat + 1 := by decide

theorem witness_PixelQueryLaws :
    clear8.ctrl = .ready ∧ inBounds clear8.cfg (7 : S16).toInt (0 : S16).toInt = true ∧ inBounds clear8.cfg 0 7 = true ∧
    ((0, 7) : Int × Int) ≠ ((7 : S16).toInt, (0 : S16).toInt) ∧
    inBounds clear8.cfg (-1 : S16).toInt (0 : S16).toInt = false ∧ CfgLegal clear8.cfg := by decide

theorem witness_PlotsCommute : Memory.wf clear8.fb ∧ (true = true ∨ ((1, 1) : Int × Int) ≠ (1, 1)) ∧
    (true = false ∨ ((1, 1) : Int × Int) ≠ (1, 2)) := by decide

theorem witness_LineRunsTheLoop :
    (lineTrace 0 0 5 2)[0]? = some (0, 0, 3) ∧ (lineTrace 0 0 5 2)[1]? = some (1, 0, 1) ∧
    (lineTrace 0 0 5 2)[4]? = some (4, 2, 5) ∧ (lineTrace 0 0 5 2)[5]? = some (5, 2, 3) := by decide

theorem witness_LineStepsAndStaysInside :
    (linePoints 0 0 5 2)[0]? = some (0, 0) ∧ (linePoints 0 0 5 2)[1]? = some (1, 0) ∧ |(2 - 0 : Int)| ≤ |5 - 0| ∧
    (linePoints 0 0 2 5)[4]? = some (2, 4) ∧ (linePoints 0 0 2 5)[5]? = some (2, 5) ∧ |(2 - 0 : Int)| ≤ |5 - 0| ∧
    (5, 2) ∈ linePoints 0 0 5 2 := by decide

theorem witness_LineErrorStaysBounded :
    ((2, 1, 4) : Int × Int × Int) ∈ lineTrace 0 0 5 2 ∧
    ((2, 1, 4) : Int × Int × Int) ∈ lineTrace (0 : S16).toInt (0 : S16).toInt (5 : S16).toInt (2 : S16).toInt := by decide

theorem witness_TextIsDrawnPieceByPiece :
    clear8.ctrl = .ready ∧ (6 : S16).toInt = (0 : S16).toInt + 6 * ([0x41] : List Byte).length ∧
    (32767 : S16).toInt = (32761 : S16).toInt + 6 * ([0x41] : List Byte).length ∧
    (-3 : S16).toInt = (-3 : S16).toInt + 6 * ([] : List Byte).length := by decide

theorem witness_ConstructOperation :
    (failing State.reset).ctrl = .uninitialized ∧ (1 : Byte) ≠ 0 ∧ (255 : Byte) ≠ 0 ∧ (8 : Byte) ≠ 0 ∧ (248 : Byte).toNat % 8 = 0 ∧
    (8 : Byte).toNat % 8 = 0 ∧ (failing State.reset).blocked = false ∧ Answers (failing State.reset) := by decide

theorem witness_ConstructRefusals :
    clear8.ctrl = .ready ∧ State.reset.ctrl = .uninitialized ∧ ((0 : Byte) = 0 ∨ (8 : Byte) = 0 ∨ (8 : Byte).toNat % 8 ≠ 0) ∧
    ((8 : Byte) = 0 ∨ (0 : Byte) = 0 ∨ (0 : Byte).toNat % 8 ≠ 0) ∧ ((8 : Byte) = 0 ∨ (255 : Byte) = 0 ∨ (255 : Byte).toNat % 8 ≠ 0) := by
  decide

/-- RenderOperation, ContrastAndInvertOperations, the four obligations of the commands. -/
theorem witness_answered_transport :
    (failing clear8).ctrl = .ready ∧ (failing clear8).blocked = false ∧ Answers (failing clear8) ∧
    State.reset.ctrl = .uninitialized := by decide

theorem witness_SequencerPerformsDecodedCommands :
    decodeCommand (.cmd1 0xA8 0x1F) = some (.cmdSetMultiplex 0x1F) ∧ decodeCommand .data = some .cmdData := by decide

theorem witness_StepRunsPresentedOperation :
    (presenting clear8 [0x02]).blocked = false ∧ (presenting clear8 [0x02]).sequencer = [] ∧
    (presenting clear8 [0x02]).host = .operation [0x02] :: [] ∧ decodeDescriptor [0x02] = .ok .clear := ⟨rfl, rfl, rfl, rfl⟩

theorem witness_StepRunsSequencedCommand :
    lastInit.blocked = false ∧ lastInit.sequencer = .cmd0 0xAF :: [] ∧ decodeCommand (.cmd0 0xAF) = some .cmdDisplayOn ∧
    (∃ t, exec .cmdDisplayOn lastInit = .next t ∧ t.blocked = false) ∧
    ∃ t, exec .cmdDisplayOn { lastInit with transport := [.never] } = .next t ∧ t.blocked = true :=
  ⟨rfl, rfl, rfl, ⟨_, rfl, rfl⟩, _, rfl, rfl⟩

theorem witness_RefusedDescriptorChangesNothing :
    (presenting clear8 [0x05, 0x02]).blocked = false ∧ (presenting clear8 [0x05, 0x02]).sequencer = [] ∧
    (presenting clear8 [0x05, 0x02]).host = .operation [0x05, 0x02] :: [] ∧
    decodeDescriptor [0x05, 0x02] = .error .reservedBit := ⟨rfl, rfl, rfl, rfl⟩

theorem witness_NothingHappensWithoutTheHost : clear8.blocked = false ∧ clear8.sequencer = [] ∧ clear8.host = [] := by decide

theorem witness_HardwareResetEvent :
    ({ clear8 with host := [.reset], blocked := true } : State).blocked = true ∧
    ({ clear8 with host := [.reset] } : State).sequencer = [] ∧
    ({ clear8 with host := [.reset] } : State).host = .reset :: [] := by decide

theorem witness_UnansweredTransactionBlocksForEver :
    State.reset.ctrl = .uninitialized ∧ geometryOk 1 8 = true ∧ State.reset.blocked = false ∧ 24 < 25 ∧
    (List.replicate 24 TransportAnswer.failed).length = 24 ∧ (∀ r ∈ List.replicate 24 TransportAnswer.failed, r ≠ .never) ∧
    ({ State.reset with transport := List.replicate 24 .failed ++ .never :: [] } : State).transport =
      List.replicate 24 .failed ++ .never :: [] ∧
    ({ State.reset with transport := .never :: [] } : State).transport = [] ++ .never :: [] ∧
    State.reset.host.head? ≠ some .reset := by decide

/-- The first and the last transaction of RENDER; the last one of SETCONTRAST. -/
theorem witness_UnansweredOperationBlocksForEver :
    clear8.ctrl = .ready ∧ NeverAnswers { clear8 with transport := [.never] } 0 ∧
    NeverAnswers { clear8 with transport := List.replicate 6 .failed ++ [.never] } 6 ∧ 6 < 7 ∧
    NeverAnswers { clear8 with transport := [.written 0, .never] } 1 ∧ 1 < 2 := by decide

/-- The last transaction of a command of each arity, and the data transfer. -/
theorem witness_UnansweredCommandBlocksForEver :
    (decodeCommand (.cmd0 0xAE)).isSome = true ∧ (decodeCommand (.cmd1 0xA8 0x1F)).isSome = true ∧
    (decodeCommand (.cmd2 0x22 0x00 0x03)).isSome = true ∧ decodeCommand .data = some .cmdData ∧
    NeverAnswers { clear8 with transport := [.never] } 0 ∧ 0 < (wordBytes [] (.cmd0 0xAE)).length ∧ 0 < (wordBytes [] .data).length ∧
    NeverAnswers { clear8 with transport := [.failed, .never] } 1 ∧ 1 < (wordBytes [] (.cmd1 0xA8 0x1F)).length ∧
    NeverAnswers { clear8 with transport := [.failed, .failed, .never] } 2 ∧ 2 < (wordBytes [] (.cmd2 0x22 0x00 0x03)).length := by
  decide

theorem witness_ClearAllPrimitive :
    CfgLegal clear8.cfg ∧ inBounds clear8.cfg 0 0 = true ∧ inBounds clear8.cfg 7 7 = true ∧
    8 < clear8.cfg.width.toNat * clear8.cfg.pages.toNat + 1 := by decide

theorem witness_AcceptedInstructionsComplete :
    accepts State.reset (.construct 255 248 0x7F true) = true ∧ accepts clear8 .render = true ∧ accepts clear8 .destroy = true ∧
    accepts State.reset .cmdDisplayOff = true ∧ (failing clear8).blocked = false ∧ Answers (failing clear8) := by decide

theorem witness_OutOnlyGrowsAtCurrentAddress : ∃ t, step (presenting clear8 [0x04, 0x7F]) = .next t := ⟨_, rfl⟩

theorem witness_DrawingAndDeviceSidesAreSeparate :
    (isDrawing .clear = true ∧ ∃ t, exec .clear clear8 = .next t) ∧
    (isDrawing .render = false ∧ (∀ w h a e, Instr.render ≠ .construct w h a e) ∧ Instr.render ≠ .destroy ∧
      ∃ t, exec .render clear8 = .next t) := by
  refine ⟨⟨rfl, _, rfl⟩, rfl, by simp, by simp, _, rfl⟩

theorem witness_CfgIsWrittenByConstructOnly :
    ∃ t, exec (.construct 8 8 0x3C false) State.reset = .next t ∧ t.cfg ≠ State.reset.cfg :=
  ⟨_, rfl, by decide⟩

/-- The other case, DESTROY: its `cfg` is a free value, so it differs from one of two configurations. -/
theorem witness_CfgIsWrittenByConstructOnly_destroy :
    ∃ s t, exec .destroy s = .next t ∧ t.cfg ≠ s.cfg := by
  by_cases h : Config.freeWidth 1 = 8
  · exact ⟨display 16 8 0, _, rfl, fun e => absurd (h.symm.trans (congrArg Cfg.width e)) (by decide)⟩
  · exact ⟨clear8, _, rfl, fun e => h (congrArg Cfg.width e)⟩

/-- The four ways STATE changes: CONSTRUCT, the last init command, DESTROY, reset. -/
theorem witness_StateTransitions :
    (∃ t, step (presenting State.reset [0x00, 0x08, 0x08, 0x3C, 0x00]) = .next t ∧ .uninitialized ≠ t.ctrl) ∧
    (∃ t, step lastInit = .next t ∧ lastInit.ctrl ≠ t.ctrl) ∧
    (∃ t, step (presenting clear8 [0x01]) = .next t ∧ clear8.ctrl ≠ t.ctrl) ∧
    ∃ t, step { clear8 with host := [.reset] } = .next t ∧ clear8.ctrl ≠ t.ctrl :=
  ⟨⟨_, rfl, by decide⟩, ⟨_, rfl, by decide⟩, ⟨_, rfl, by decide⟩, _, rfl, by decide⟩

theorem witness_DrawingIsIdempotent :
    isDrawing (.drawLine 0 0 1 1 true) = true ∧
    ∃ t u, exec (.drawLine 0 0 1 1 true) clear8 = .next t ∧ exec (.drawLine 0 0 1 1 true) t = .next u :=
  ⟨rfl, _, _, rfl, rfl⟩

theorem witness_DrawingIgnoresOldContent :
    isDrawing (.drawLine 0 0 7 7 true) = true ∧ display 8 8 0xFF = { clear8 with fb := (display 8 8 0xFF).fb } ∧
    (∃ t, exec (.drawLine 0 0 7 7 true) clear8 = .next t) ∧ (∃ t, exec (.drawLine 0 0 7 7 true) (display 8 8 0xFF) = .next t) ∧
    inBounds clear8.cfg 7 7 = true := ⟨rfl, rfl, ⟨_, rfl⟩, ⟨_, rfl⟩, by decide⟩

theorem witness_TransportResultsNeverMatter :
    Answers (failing (presenting clear8 [0x03])) ∧ (∀ r ∈ [TransportAnswer.written 2, .failed], r ≠ .never) ∧
    ∃ t, core.run 2 (failing (presenting clear8 [0x03])) = .next t := ⟨by decide, by decide, _, rfl⟩

theorem witness_SequencesRunAtOnceOrStepByStep :
    (failing State.reset).blocked = false ∧ Answers (failing State.reset) ∧
    accepts (failing State.reset) (.construct 8 8 0x3C false) = true ∧ (failing clear8).blocked = false ∧ Answers (failing clear8) ∧
    (failing clear8).ctrl = .ready := by decide

theorem witness_StepKeepsInvariant : Inv State.reset ∧ ∃ t, step State.reset = .next t :=
  ⟨⟨by simp [State.reset], by simp [State.reset], by simp [State.reset], by simp [State.reset], by simp [State.reset],
    by simp [State.reset], by simp [State.reset]⟩, _, rfl⟩

end Sys2Proof.Tests
end

section
/-! PROOF. 00_scope.md: the block acts only when the host presents something to it. -/

namespace Sys2Proof.Machine

/-- Port free, no command running, no event presented: nothing to fetch. -/
theorem fetch_idle {s : State} (hb : s.blocked = false) (hs : s.sequencer = []) (hh : s.host = []) : fetch s = .idle := by
  simp [fetch, hb, hs, hh]

/-- Settles O39: what such a step fetches is `idle`, the one case of `step` that answers with the state it was given. -/
theorem nothingHappensWithoutTheHost : Obligations.NothingHappensWithoutTheHost := by
  intro s hb hs hh
  have hf : fetch s = .idle := fetch_idle hb hs hh
  simp only [step, hf]

end Sys2Proof.Machine
end

section
/-! PROOF. 10_state.md: what an executed instruction can have done, the invariant of the machine, OUT and `cfg` over every step. -/

namespace Sys2Proof.Machine

/-! ### What an executed instruction did -/

/-- Everything an instruction that answers a next state can have done. -/
inductive ExecResult (i : Instr) (s : State) : State → Prop where
  | refused (c : RefusalCause) : ExecResult i s { s with refusals := s.refusals ++ [c] }
  | plotted (set : Bool) (ps : List Point) (hr : s.ctrl = .ready) : ExecResult i s (plotAll set ps s)
  | cleared (hr : s.ctrl = .ready) : ExecResult i s (clearAll s)
  | constructed (w h : Byte) (a : BitVec 7) (e : Bool) (hi : i = .construct w h a e) (hu : s.ctrl = .uninitialized)
      (hg : geometryOk w h = true) :
      ExecResult i s (runSequence (initSequence h e) (beginConstruct w h a e s))
  | destroyed (hi : i = .destroy) (hr : s.ctrl = .ready) : ExecResult i s { forget s with ctrl := .uninitialized }
  | sequenced (ws : List CmdWord) (hr : s.ctrl = .ready) (hne : ws ≠ [])
      (hk : ∀ w ∈ ws, (decodeCommand w).isSome = true) : ExecResult i s (runSequence ws s)
  | commanded (w : CmdWord) (hi : isOperation i = false) : ExecResult i s (performWord w s)

/-- A gated operation took effect while Ready or was refused. -/
theorem whenReady_result {i : Instr} {f : State → State} {s t : State} (h : whenReady f s = .next t)
    (effect : s.ctrl = .ready → ExecResult i s (f s)) : ExecResult i s t := by
  rcases whenReady_cases f s with ⟨hr, he⟩ | ⟨-, he⟩ <;> rw [he] at h <;> cases h
  · exact effect hr
  · exact .refused _

theorem execConstruct_result {w hgt : Byte} {a : BitVec 7} {e : Bool} {s t : State}
    (h : execConstruct w hgt a e s = .next t) : ExecResult (.construct w hgt a e) s t := by
  rcases execConstruct_cases w hgt a e s with ⟨-, he⟩ | ⟨-, -, he⟩ | ⟨hu, hg, he⟩ <;> rw [he] at h <;> cases h
  · exact .refused _
  · exact .refused _
  · exact .constructed w hgt a e rfl hu hg

theorem exec_destroy (s : State) : exec .destroy s = whenReady (fun s => { forget s with ctrl := .uninitialized }) s := rfl

theorem exec_result {i : Instr} {s t : State} (h : exec i s = .next t) : ExecResult i s t := by
  cases hd : isDrawing i with
  | true =>
    rcases exec_drawing hd with ⟨set, ps, he⟩ | he
    · exact whenReady_result (he s ▸ h) (.plotted set ps)
    · exact whenReady_result (he s ▸ h) .cleared
  | false =>
    rcases exec_device hd with ⟨w, hgt, a, e, rfl⟩ | rfl | ⟨-, ws, hws, he⟩ | ⟨ho, w, -, he⟩
    · exact execConstruct_result h
    · exact whenReady_result (exec_destroy s ▸ h) (.destroyed rfl)
    · exact whenReady_result (he s ▸ h) fun hr => .sequenced _ hr (hws _).1 (hws _).2
    · rw [he] at h
      cases h
      exact .commanded w ho

/-! ### What the two decoders can answer -/

/-- A command word decodes to the instruction whose meaning is what the sequencer does for the word (30_encoding.md R100 to R102). -/
theorem exec_of_decodeCommand {w : CmdWord} {i : Instr} (h : decodeCommand w = some i) (s : State) :
    exec i s = .next (performWord w s) := by
  have byte {op : Byte} {n : Nat} (hn : op.toNat = n) : op = BitVec.ofNat 8 n := by
    rw [← hn, BitVec.ofNat_toNat, BitVec.setWidth_eq]
  cases w with
  | cmd0 op =>
    simp only [decodeCommand, decodeCmd0] at h
    split at h <;> cases h
    all_goals rw [byte ‹op.toNat = _›]; rfl
  | cmd1 op a1 =>
    simp only [decodeCommand, decodeCmd1] at h
    split at h <;> cases h
    all_goals rw [byte ‹op.toNat = _›]; rfl
  | cmd2 op a1 a2 =>
    simp only [decodeCommand, decodeCmd2] at h
    split at h <;> cases h
    all_goals rw [byte ‹op.toNat = _›]; rfl
  | data => cases h; rfl

/-- A descriptor decodes to an operation of the host (30_encoding.md R80): each format answers an error or the operation it encodes. -/
theorem isOperation_of_decodeDescriptor {d : List Byte} {i : Instr} (h : decodeDescriptor d = .ok i) :
    isOperation i = true := by
  cases d with
  | nil => cases h
  | cons op body =>
    simp only [decodeDescriptor, decodeCon, decodeNul, decodeU8, decodeFlg, decodePix, decodeLin, decodeBox, decodeChr,
      decodeTxt] at h
    repeat' split at h
    all_goals cases h <;> rfl

/-! ### A legal configuration -/

/-- A legal configuration has at least one column and at least one page (10_state.md R22), and its height is in pages. -/
theorem cfgLegal_sizes {cfg : Cfg} (h : CfgLegal cfg) :
    1 ≤ cfg.width.toNat ∧ 1 ≤ cfg.pages.toNat ∧ cfg.height.toNat = 8 * cfg.pages.toNat := by
  obtain ⟨hg, hp⟩ := h
  simp only [geometryOk, Bool.and_eq_true, bne_iff_ne, beq_iff_eq, ne_eq] at hg
  obtain ⟨⟨hw, hh⟩, hm⟩ := hg
  have hw' : cfg.width.toNat ≠ 0 := fun e => hw (BitVec.eq_of_toNat_eq e)
  have hh' : cfg.height.toNat ≠ 0 := fun e => hh (BitVec.eq_of_toNat_eq e)
  omega

/-- CONSTRUCT's operands in range give a legal configuration. -/
theorem cfgOf_legal {w h : Byte} (a : BitVec 7) (e : Bool) (hg : geometryOk w h = true) : CfgLegal (cfgOf w h a e) := by
  refine ⟨hg, ?_⟩
  have hh : h.toNat < 256 := h.isLt
  simp only [cfgOf, BitVec.toNat_ofNat]
  omega

/-- An in-bounds pixel lies in a byte in use (20_memory.md R52). -/
theorem pixelIndex_lt_fbLen {cfg : Cfg} {x y : Int} (hl : CfgLegal cfg) (hb : inBounds cfg x y = true) :
    pixelIndex cfg x y < fbLen cfg := by
  obtain ⟨-, -, hh⟩ := cfgLegal_sizes hl
  rw [inBounds_iff] at hb
  obtain ⟨hx0, hx, hy0, hy⟩ := hb
  have hrow : y.toNat / 8 + 1 ≤ cfg.pages.toNat := by omega
  have hmul : cfg.width.toNat * (y.toNat / 8 + 1) ≤ cfg.width.toNat * cfg.pages.toNat := Nat.mul_le_mul_left _ hrow
  rw [pixelIndex_eq, fbLen]
  rw [Nat.mul_add] at hmul
  omega

/-- The data transfer of a legal configuration has 2 to 7906 bytes and begins 0x40 (44_controller.md R216 (b)). -/
theorem dataTransfer_shape {s : State} (hl : CfgLegal s.cfg) : TransactionShape (0x40 :: pixelBytes s) := by
  obtain ⟨hw, hp, -⟩ := cfgLegal_sizes hl
  have hw' : s.cfg.width.toNat ≤ 255 := by have := s.cfg.width.isLt; omega
  have hp' : s.cfg.pages.toNat ≤ 31 := by have := s.cfg.pages.isLt; omega
  have lower : 1 * 1 ≤ s.cfg.width.toNat * s.cfg.pages.toNat := Nat.mul_le_mul hw hp
  have upper : s.cfg.width.toNat * s.cfg.pages.toNat ≤ 255 * 31 := Nat.mul_le_mul hw' hp'
  refine .inr ⟨rfl, ?_, ?_⟩ <;> simp only [pixelBytes, List.length_cons, List.length_map, List.length_range, Config.fbMax] <;>
    omega

/-! ### The invariant, one transformation at a time -/

/-- The invariant does not speak of the host, the record of refusals, the port or the answers to come. -/
theorem inv_env {s : State} (hi : Inv s) (host : List HostEvent) (refusals : List RefusalCause) :
    Inv { s with host := host, refusals := refusals } :=
  ⟨hi.fbCanonical, hi.fbInUse, hi.cfgLegal, hi.idleWhenUninitialized, hi.runningWhenInitializing, hi.sequencerKnown, hi.outShape⟩

/-- Writing a byte in use keeps the bytes listed in use. -/
theorem memWrite_inUse {m : Memory} {n i : Nat} (v : Byte) (hm : ∀ c ∈ m, c.1 < n) (hlt : i < n) :
    ∀ c ∈ memWrite m i v, c.1 < n := by
  intro c hc
  rcases mem_memWrite hc with rfl | hc
  · exact hlt
  · exact hm c hc

theorem fbWrite_inv {s : State} {i : Nat} (v : Byte) (hi : Inv s) (hlt : i < fbLen s.cfg) : Inv (fbWrite i v s) :=
  { hi with
    fbCanonical := memWrite_wf i v hi.fbCanonical
    fbInUse := memWrite_inUse v hi.fbInUse hlt }

theorem plot_inv {s : State} (set : Bool) (x y : Int) (hi : Inv s) (hl : CfgLegal s.cfg) : Inv (plot set x y s) := by
  unfold plot
  split
  · next hb => exact fbWrite_inv _ hi (pixelIndex_lt_fbLen hl hb)
  · exact hi

theorem plotAll_inv (set : Bool) (ps : List Point) {s : State} (hi : Inv s) (hl : CfgLegal s.cfg) :
    Inv (plotAll set ps s) := by
  induction ps generalizing s with
  | nil => exact hi
  | cons p ps ih => exact ih (plot_inv set p.1 p.2 hi hl) (by simpa using hl)

theorem clearRange_inv (l : List Nat) {s : State} (hi : Inv s) (hl : ∀ i ∈ l, i < fbLen s.cfg) :
    Inv (l.foldl (fun s i => fbWrite i 0x00 s) s) := by
  induction l generalizing s with
  | nil => exact hi
  | cons i l ih =>
    exact ih (fbWrite_inv _ hi (hl i List.mem_cons_self)) fun j hj => hl j (List.mem_cons_of_mem _ hj)

theorem clearAll_inv {s : State} (hi : Inv s) : Inv (clearAll s) := clearRange_inv _ hi fun _ => List.mem_range.1

/-- Uninitialized, nothing written, no command running: only the history of OUT is left to be said. -/
theorem inv_of_uninitialized {s : State} (hc : s.ctrl = .uninitialized) (hf : s.fb = []) (hs : s.sequencer = [])
    (ho : ∀ t ∈ s.out, TransactionShape t.bytes) : Inv s where
  fbCanonical := by rw [hf]; exact List.Pairwise.nil
  fbInUse := by simp [hf]
  cfgLegal h := absurd hc h
  idleWhenUninitialized _ := hs
  runningWhenInitializing h := by simp [hc] at h
  sequencerKnown := by simp [hs]
  outShape := ho

theorem hardwareReset_inv {s : State} (hi : Inv s) : Inv (hardwareReset s) := inv_of_uninitialized rfl rfl rfl hi.outShape

/-- Sending to the device keeps the invariant where the configuration is legal, the sequencer and STATE staying as they are. -/
theorem sends_inv {s t : State} (h : Sends s t) (hc : t.ctrl = s.ctrl) (hq : t.sequencer = s.sequencer) (hi : Inv s)
    (hl : CfgLegal s.cfg) : Inv t where
  fbCanonical := by
    rcases h.fb with hf | hf <;> rw [hf]
    · exact hi.fbCanonical
    · exact memWrite_wf _ _ hi.fbCanonical
  fbInUse := by
    rw [h.cfg]
    rcases h.fb with hf | hf <;> rw [hf]
    · exact hi.fbInUse
    · exact memWrite_inUse _ hi.fbInUse (Nat.succ_pos _)
  cfgLegal _ := by rw [h.cfg]; exact hl
  idleWhenUninitialized := by rw [hc, hq]; exact hi.idleWhenUninitialized
  runningWhenInitializing := by rw [hc, hq]; exact hi.runningWhenInitializing
  sequencerKnown := by rw [hq]; exact hi.sequencerKnown
  outShape := by
    obtain ⟨bs, ho, hb⟩ := h.out
    intro t ht
    rw [ho, sent, List.mem_append, List.mem_map] at ht
    rcases ht with ht | ⟨b, hm, rfl⟩
    · exact hi.outShape t ht
    · rcases hb b hm with ⟨p, rfl⟩ | rfl
      · exact .inl ⟨rfl, rfl⟩
      · exact dataTransfer_shape hl

/-- The sequencer's move to the next command: an init sequence that is over leaves the block Ready, one that goes on still runs. -/
theorem advance_inv {s : State} {w : CmdWord} {rest : List CmdWord} (hi : Inv s) (hs : s.sequencer = w :: rest) :
    Inv (advance rest s) := by
  have hu : s.ctrl ≠ .uninitialized := fun h => by simp [hi.idleWhenUninitialized h] at hs
  unfold advance
  split
  · exact hi
  · refine { hi with cfgLegal := fun _ => hi.cfgLegal hu, idleWhenUninitialized := ?_,
                     runningWhenInitializing := ?_, sequencerKnown := ?_ }
    · intro h
      dsimp only at h
      split at h
      · cases h
      · exact absurd h hu
    · intro h hr
      dsimp only at h
      split at h
      · cases h
      · next hn => exact hn ⟨hr, h⟩
    · exact fun v hv => hi.sequencerKnown v (by rw [hs]; exact List.mem_cons_of_mem _ hv)

/-- One command of a running sequence. -/
theorem command_inv {s : State} {w : CmdWord} {rest : List CmdWord} (v : CmdWord) (hi : Inv s) (hs : s.sequencer = w :: rest) :
    Inv (advance rest (performWord v s)) := by
  obtain ⟨hS, hc, hq⟩ := performWord_sends v s
  have hu : s.ctrl ≠ .uninitialized := fun h => by simp [hi.idleWhenUninitialized h] at hs
  exact advance_inv (sends_inv hS hc hq hi (hi.cfgLegal hu)) (hq.trans hs)

/-- A sequence run from the state whose sequencer holds it is its commands one after the other. -/
theorem runSequence_loaded_inv (ws : List CmdWord) {s : State} (hi : Inv s) (hs : s.sequencer = ws) : Inv (runSequence ws s) := by
  induction ws generalizing s with
  | nil => exact hi
  | cons w rest ih =>
    have hload : { s with sequencer := w :: rest } = s := by rw [← hs]
    rw [runSequence]
    split
    · exact hi
    · rw [hload]
      have hi' := command_inv w hi hs
      obtain ⟨-, hb, hrun, -⟩ := advance_sends rest (performWord w s)
      cases hp : (performWord w s).blocked with
      | true => rw [runSequence_blocked (hb.trans hp)]; exact hi'
      | false => exact ih hi' (hrun hp).1

/-- Running a sequence loads the sequencer with it first. -/
theorem runSequence_inv {ws : List CmdWord} {s : State} (hb : s.blocked = false) (hne : ws ≠ [])
    (hi : Inv { s with sequencer := ws }) : Inv (runSequence ws s) := by
  have hload : runSequence ws s = runSequence ws { s with sequencer := ws } := by
    cases ws with
    | nil => exact absurd rfl hne
    | cons w rest => simp [runSequence, hb]
  rw [hload]
  exact runSequence_loaded_inv ws hi rfl

/-- The state CONSTRUCT begins with, its init sequence in the sequencer. -/
theorem beginConstruct_inv {s : State} {w h : Byte} (a : BitVec 7) (e : Bool) (hi : Inv s) (hg : geometryOk w h = true) :
    Inv { beginConstruct w h a e s with sequencer := initSequence h e } where
  fbCanonical := List.Pairwise.nil
  fbInUse := by simp [beginConstruct]
  cfgLegal _ := cfgOf_legal a e hg
  idleWhenUninitialized h := nomatch h
  runningWhenInitializing _ := (initSequence_known h e).1
  sequencerKnown := (initSequence_known h e).2
  outShape := hi.outShape

/-- A Ready block with sequence of known commands in the sequencer. -/
theorem inv_load {s : State} {ws : List CmdWord} (hi : Inv s) (hr : s.ctrl = .ready)
    (hk : ∀ w ∈ ws, (decodeCommand w).isSome = true) : Inv { s with sequencer := ws } :=
  { hi with
    idleWhenUninitialized := fun h => by simp [hr] at h
    runningWhenInitializing := fun h => by simp [hr] at h
    sequencerKnown := hk }

/-- An operation of the host, accepted by a block that is not running a sequence. -/
theorem exec_operation_inv {i : Instr} {s t : State} (hi : Inv s) (hb : s.blocked = false) (hs : s.sequencer = [])
    (hop : isOperation i = true) (h : exec i s = .next t) : Inv t := by
  have legal (hr : s.ctrl = .ready) : CfgLegal s.cfg := hi.cfgLegal (by simp [hr])
  cases exec_result h with
  | refused c => exact inv_env hi s.host _
  | plotted set ps hr => exact plotAll_inv set ps hi (legal hr)
  | cleared => exact clearAll_inv hi
  | constructed w hgt a e _ _ hg =>
    exact runSequence_inv (s := beginConstruct w hgt a e s) hb (initSequence_known hgt e).1 (beginConstruct_inv a e hi hg)
  | destroyed => exact inv_of_uninitialized rfl rfl hs hi.outShape
  | sequenced ws hr hne hk => exact runSequence_inv hb hne (inv_load hi hr hk)
  | commanded w ho => simp [hop] at ho

/-- Settles O52: a step is a reset, one command of the running sequence, or an event of the host, and each keeps the invariant. -/
theorem stepKeepsInvariant : Obligations.StepKeepsInvariant := by
  intro s t hi h
  obtain ⟨-, rest, -, rfl⟩ | ⟨hb, hcase⟩ := step_cases h
  · exact hardwareReset_inv (inv_env hi rest s.refusals)
  · obtain ⟨w, rest, i, u, hs, hd, he, rfl⟩ | ⟨hs, hcase⟩ := hcase
    · rw [exec_of_decodeCommand hd] at he
      cases he
      exact command_inv w hi hs
    · obtain ⟨-, rfl⟩ | ⟨rest, -, rfl⟩ | ⟨d, rest, i, -, hd, he⟩ | ⟨d, rest, c, -, -, rfl⟩ := hcase
      · exact hi
      · exact hardwareReset_inv (inv_env hi rest s.refusals)
      · exact exec_operation_inv (inv_env hi rest s.refusals) hb hs (isOperation_of_decodeDescriptor hd) he
      · exact inv_env hi rest _

/-- Settles O53: reset is one of the Uninitialized states with nothing written, and OUT is empty. -/
theorem resetMeetsInvariant : Obligations.ResetMeetsInvariant :=
  inv_of_uninitialized rfl rfl rfl (by simp [State.reset])

/-! ### Reset -/

/-- Settles O42: the fields are those of the record `State.reset`, the codes those of the table of R21. -/
theorem resetState : Obligations.ResetState := ⟨rfl, rfl, rfl, rfl, rfl, rfl⟩

/-! ### OUT -/

/-- The frame of a sequence of commands, blocked or not. -/
theorem runSequence_sends_any (ws : List CmdWord) (s : State) : Sends s (runSequence ws s) := by
  cases hb : s.blocked with
  | true => rw [runSequence_blocked hb]; exact .refl s
  | false => exact (runSequence_sends ws s hb).1

/-- `OUT` of `t` is `OUT` of `s` with transactions to the ADDR of `t` after it. -/
def OutGrows (s t : State) : Prop := ∃ bs : List (List Byte), t.out = s.out ++ bs.map fun b => ⟨t.cfg.addr, b⟩

theorem outGrows_of_out_eq {s t : State} (h : t.out = s.out) : OutGrows s t := ⟨[], by simp [h]⟩

theorem Sends.outGrows {s t : State} (h : Sends s t) : OutGrows s t := by
  obtain ⟨bs, ho, -⟩ := h.out
  exact ⟨bs, by rw [ho, h.cfg, sent]⟩

theorem exec_outGrows {i : Instr} {s t : State} (h : exec i s = .next t) : OutGrows s t := by
  cases exec_result h with
  | refused c => exact outGrows_of_out_eq rfl
  | plotted set ps => exact outGrows_of_out_eq (by rw [plotAll_onlyFb set ps s])
  | cleared => exact outGrows_of_out_eq (by rw [clearAll_onlyFb s])
  | constructed w hgt a e => exact (runSequence_sends_any _ (beginConstruct w hgt a e s)).outGrows
  | destroyed => exact outGrows_of_out_eq rfl
  | sequenced ws => exact (runSequence_sends_any ws s).outGrows
  | commanded w => exact (performWord_sends w s).1.outGrows

/-- Settles O44: only an executed instruction sends, and the sequencer's move after it sends nothing and keeps `cfg`. -/
theorem outOnlyGrowsAtCurrentAddress : Obligations.OutOnlyGrowsAtCurrentAddress := by
  intro s t h
  show OutGrows s t
  obtain ⟨-, rest, -, rfl⟩ | ⟨-, hcase⟩ := step_cases h
  · exact outGrows_of_out_eq rfl
  · obtain ⟨w, rest, i, u, -, hd, he, rfl⟩ |
        ⟨-, ⟨-, rfl⟩ | ⟨rest, -, rfl⟩ | ⟨d, rest, i, -, -, he⟩ | ⟨d, rest, c, -, -, rfl⟩⟩ := hcase
    · rw [exec_of_decodeCommand hd] at he
      cases he
      exact ((performWord_sends w s).1.trans (advance_sends rest _).1).outGrows
    · exact outGrows_of_out_eq rfl
    · exact outGrows_of_out_eq rfl
    · exact exec_outGrows (s := { s with host := rest }) he
    · exact outGrows_of_out_eq rfl

/-! ### `cfg` -/

/-- Settles O46: of the results an instruction can have, only those of CONSTRUCT and DESTROY do not keep `cfg`. -/
theorem cfgIsWrittenByConstructOnly : Obligations.CfgIsWrittenByConstructOnly := by
  intro i s t h hne
  cases exec_result h with
  | refused c => exact absurd rfl hne
  | plotted set ps => exact absurd (by rw [plotAll_onlyFb set ps s]) hne
  | cleared => exact absurd (by rw [clearAll_onlyFb s]) hne
  | constructed w hgt a e hi =>
    exact .inl ⟨w, hgt, a, e, hi, (runSequence_sends_any _ (beginConstruct w hgt a e s)).cfg⟩
  | destroyed hi => exact .inr hi
  | sequenced ws => exact absurd (runSequence_sends_any ws s).cfg hne
  | commanded w => exact absurd (performWord_sends w s).1.cfg hne

/-! ### One step -/

/-- The host's descriptor is fetched once the port is free and no command is running. -/
theorem fetch_operation {s : State} {d : List Byte} {rest : List HostEvent} {i : Instr} (hb : s.blocked = false)
    (hs : s.sequencer = []) (hh : s.host = .operation d :: rest) (hd : decodeDescriptor d = .ok i) :
    fetch s = .operation i { s with host := rest } := by
  simp [fetch, hb, hs, hh, hd]

/-- The sequencer's next command is fetched before any event of the host. -/
theorem fetch_command {s : State} {w : CmdWord} {rest : List CmdWord} {i : Instr} (hb : s.blocked = false)
    (hs : s.sequencer = w :: rest) (hd : decodeCommand w = some i) : fetch s = .command i rest := by
  simp [fetch, hb, hs, hd]

/-- Settles O36: what such a step fetches is the operation, which `step` executes. -/
theorem stepRunsPresentedOperation : Obligations.StepRunsPresentedOperation := by
  intro s d rest i hb hs hh hd
  have hf := fetch_operation hb hs hh hd
  simp only [step, hf]

/-- Settles O37: what such a step fetches is the command, and after it the sequencer moves on as `advance` says. -/
theorem stepRunsSequencedCommand : Obligations.StepRunsSequencedCommand := by
  intro s t w rest i hb hs hd he
  have hf := fetch_command hb hs hd
  simp only [step, hf, he, afterCommand, advance]

end Sys2Proof.Machine
end

section
/-! PROOF. 20_memory.md: the pixel address is a bijection (R52), drawing twice is drawing once (R59), drawing does not look at the old
content (R60). -/

namespace Sys2Proof.Machine

/-! ### The pixel address -/

theorem pixelIndex_int {cfg : Cfg} {x y : Int} (hb : inBounds cfg x y = true) :
    (pixelIndex cfg x y : Int) = 1 + cfg.width.toNat * (y / 8) + x := by
  obtain ⟨hx, -, hy, -⟩ := inBounds_iff.1 hb
  rw [pixelIndex_eq]
  push_cast
  rw [Int.toNat_of_nonneg hx, Int.toNat_of_nonneg hy]

theorem pixelBit_int {y : Int} (hy : 0 ≤ y) : (pixelBit y : Int) = y % 8 := by
  rw [pixelBit_eq_mod]
  omega

/-- The control byte, index 0, holds no pixel (20_memory.md R50). -/
theorem pixelIndex_pos (cfg : Cfg) (x y : Int) : 1 ≤ pixelIndex cfg x y := by
  rw [pixelIndex_eq]
  omega

theorem pixelIndex_le_region {cfg : Cfg} {x y : Int} (hl : CfgLegal cfg) (hb : inBounds cfg x y = true) :
    pixelIndex cfg x y ≤ cfg.width.toNat * cfg.pages.toNat :=
  Nat.le_of_lt_succ (pixelIndex_lt_fbLen hl hb)

/-- The pixel in column `k % WIDTH` of page `k / WIDTH`, row `b` of the page, has the address `(k + 1, b)`: offset `k` of the pixel region
split by `WIDTH` into page and column (20_memory.md R51). -/
theorem pixelAddress_of_offset (cfg : Cfg) (k : Nat) {b : Nat} (hb : b < 8) :
    pixelIndex cfg (k % cfg.width.toNat : Nat) (8 * (k / cfg.width.toNat) + b : Nat) = k + 1 ∧
      pixelBit (8 * (k / cfg.width.toNat) + b : Nat) = b := by
  have page : (8 * (k / cfg.width.toNat) + b) / 8 = k / cfg.width.toNat := by omega
  rw [pixelIndex_eq, pixelBit_eq_mod, Int.toNat_natCast, Int.toNat_natCast, page]
  have hsplit := Nat.div_add_mod k cfg.width.toNat
  constructor <;> omega

/-- That pixel is in bounds when the offset lies in the pixel region. -/
theorem inBounds_of_offset {cfg : Cfg} (hl : CfgLegal cfg) {k b : Nat} (hk : k < cfg.width.toNat * cfg.pages.toNat) (hb : b < 8) :
    inBounds cfg (k % cfg.width.toNat : Nat) (8 * (k / cfg.width.toNat) + b : Nat) = true := by
  obtain ⟨hw, -, hh⟩ := cfgLegal_sizes hl
  have hcol : k % cfg.width.toNat < cfg.width.toNat := Nat.mod_lt k hw
  have hpage : k / cfg.width.toNat < cfg.pages.toNat := Nat.div_lt_of_lt_mul hk
  rw [inBounds_iff]
  omega

/-- Settles O7: page and bit are quotient and remainder of `y` by 8, page and column those of the offset by `WIDTH`. -/
theorem pixelAddressIsBijection : Obligations.PixelAddressIsBijection := by
  intro cfg hl
  refine ⟨fun x y hb => ?_, fun x y x' y' hb hb' => pixelAddress_injective hb hb', fun a b ha hle hb => ?_⟩
  · obtain ⟨-, -, hy, -⟩ := inBounds_iff.1 hb
    exact ⟨pixelIndex_int hb, pixelBit_int hy, pixelIndex_pos cfg x y, pixelIndex_le_region hl hb⟩
  · obtain ⟨k, rfl⟩ := Nat.exists_eq_add_of_le' ha
    exact ⟨_, _, inBounds_of_offset hl hle hb, pixelAddress_of_offset cfg k hb⟩

/-! ### Drawing twice -/

/-- Some point of the list is an in-bounds pixel with the address `(a, k)`. -/
def touches (cfg : Cfg) (ps : List Point) (a k : Nat) : Bool :=
  ps.any fun p => inBounds cfg p.1 p.2 && a == pixelIndex cfg p.1 p.2 && k == pixelBit p.2

theorem touches_iff {cfg : Cfg} {ps : List Point} {a k : Nat} :
    touches cfg ps a k = true ↔
      ∃ p ∈ ps, inBounds cfg p.1 p.2 = true ∧ a = pixelIndex cfg p.1 p.2 ∧ k = pixelBit p.2 := by
  simp [touches, and_assoc]

/-- What `plot` does to a bit of the framebuffer. -/
theorem getLsbD_plot (set : Bool) (p : Point) (s : State) (a : Nat) {k : Nat} (hk : k < 8) :
    (fbRead (plot set p.1 p.2 s) a).getLsbD k = if touches s.cfg [p] a k then set else (fbRead s a).getLsbD k := by
  rw [fbRead_plot]
  by_cases hit : inBounds s.cfg p.1 p.2 = true ∧ a = pixelIndex s.cfg p.1 p.2
  · rw [if_pos hit, getLsbD_applyMask _ _ _ hk]
    simp [touches, ← hit.2, hit.1]
  · have miss : touches s.cfg [p] a k = false := Bool.eq_false_iff.2 fun h => by
      obtain ⟨q, hq, hb, ha, -⟩ := touches_iff.1 h
      obtain rfl := List.mem_singleton.1 hq
      exact hit ⟨hb, ha⟩
    simp [hit, miss]

/-- What a list of plots does to a bit of the framebuffer: the bits of its points take the value `set`, the others stay. -/
theorem getLsbD_plotAll (set : Bool) (ps : List Point) (s : State) (a : Nat) {k : Nat} (hk : k < 8) :
    (fbRead (plotAll set ps s) a).getLsbD k = if touches s.cfg ps a k then set else (fbRead s a).getLsbD k := by
  induction ps generalizing s with
  | nil => rfl
  | cons p ps ih =>
    have hcons : touches s.cfg (p :: ps) a k = (touches s.cfg [p] a k || touches s.cfg ps a k) := by simp [touches]
    rw [plotAll_cons, ih, plot_cfg, getLsbD_plot set p s a hk, hcons]
    cases touches s.cfg [p] a k <;> simp

@[simp] theorem plotAll_cfg (set : Bool) (ps : List Point) (s : State) : (plotAll set ps s).cfg = s.cfg := by
  rw [plotAll_onlyFb set ps s]

@[simp] theorem clearAll_cfg (s : State) : (clearAll s).cfg = s.cfg := by
  rw [clearAll_onlyFb s]

/-- Done twice, the effect leaves the bytes it leaves done once. -/
def IdempotentOnFb (f : State → State) : Prop := ∀ s a, fbRead (f (f s)) a = fbRead (f s) a

theorem plotAll_idempotent (set : Bool) (ps : List Point) : IdempotentOnFb (plotAll set ps) := by
  intro s a
  refine BitVec.eq_of_getLsbD_eq fun k hk => ?_
  rw [getLsbD_plotAll set ps _ a hk, plotAll_cfg, getLsbD_plotAll set ps s a hk]
  cases touches s.cfg ps a k <;> rfl

theorem clearAll_idempotent : IdempotentOnFb clearAll := by
  intro s a
  rw [fbRead_clearAll, clearAll_cfg, fbRead_clearAll]
  split <;> rfl

/-- What a gated operation leaves: its effect while Ready, otherwise the state with one refusal more. -/
theorem whenReady_next {f : State → State} {s t : State} (h : whenReady f s = .next t) :
    (s.ctrl = .ready ∧ t = f s) ∨
      (s.ctrl ≠ .ready ∧ t = { s with refusals := s.refusals ++ [.wrongState] }) := by
  obtain ⟨hc, he⟩ | ⟨hc, he⟩ := whenReady_cases f s <;> rw [he] at h <;> cases h
  · exact .inl ⟨hc, rfl⟩
  · exact .inr ⟨hc, rfl⟩

/-- The second time it is refused, or it was executed both times, since a refusal keeps STATE. -/
theorem whenReady_idempotent {f : State → State} {s t u : State} (hf : IdempotentOnFb f) (ht : whenReady f s = .next t)
    (hu : whenReady f t = .next u) (a : Nat) : fbRead u a = fbRead t a := by
  obtain ⟨hready, rfl⟩ | ⟨-, rfl⟩ := whenReady_next hu
  · obtain ⟨-, rfl⟩ | ⟨hc, rfl⟩ := whenReady_next ht
    · exact hf s a
    · exact absurd hready hc
  · rfl

/-- Settles O48: a drawing operation is a list of plots or a clear, gated by STATE. -/
theorem drawingIsIdempotent : Obligations.DrawingIsIdempotent := by
  intro i s t u hd ht hu
  obtain ⟨set, ps, he⟩ | he := exec_drawing hd <;> rw [he] at ht hu
  · exact whenReady_idempotent (plotAll_idempotent set ps) ht hu
  · exact whenReady_idempotent clearAll_idempotent ht hu

/-! ### Drawing and the old content -/

/-- The pixel at `(x, y)` ends the same in `t` and `t'`, or `t` has it as `s` and `t'` has it as `s'`. -/
def SameOrLeftAlone (x y : Int) (s t s' t' : State) : Prop :=
  pixel t x y = pixel t' x y ∨ (pixel t x y = pixel s x y ∧ pixel t' x y = pixel s' x y)

/-- Under one configuration the effect touches the same pixels whatever the framebuffer holds. -/
def IgnoresOldContent (f : State → State) : Prop :=
  ∀ s s' : State, s'.cfg = s.cfg → ∀ x y, inBounds s.cfg x y = true → SameOrLeftAlone x y s (f s) s' (f s')

theorem plotAll_ignoresOldContent (set : Bool) (ps : List Point) : IgnoresOldContent (plotAll set ps) := by
  intro s s' hcfg x y hb
  obtain ⟨-, hpix, -⟩ := plotAll_draws set ps s
  obtain ⟨-, hpix', -⟩ := plotAll_draws set ps s'
  obtain ⟨hset, hkeep⟩ := hpix x y hb
  obtain ⟨hset', hkeep'⟩ := hpix' x y (hcfg ▸ hb)
  by_cases hmem : (x, y) ∈ ps
  · exact .inl ((hset hmem).trans (hset' hmem).symm)
  · exact .inr ⟨hkeep hmem, hkeep' hmem⟩

theorem clearAll_ignoresOldContent : IgnoresOldContent clearAll := by
  intro s s' hcfg x y _
  simp only [SameOrLeftAlone, pixel, clearAll_cfg, fbRead_clearAll, hcfg]
  by_cases hin : pixelIndex s.cfg x y < fbLen s.cfg
  · exact .inl (by rw [if_pos hin, if_pos hin])
  · exact .inr ⟨by rw [if_neg hin], by rw [if_neg hin]⟩

/-- Two states with the same STATE both execute the operation or both refuse it. -/
theorem whenReady_ignoresOldContent {f : State → State} (hf : IgnoresOldContent f) {s t s' t' : State}
    (hctrl : s'.ctrl = s.ctrl) (hcfg : s'.cfg = s.cfg) (ht : whenReady f s = .next t) (ht' : whenReady f s' = .next t')
    {x y : Int} (hb : inBounds s.cfg x y = true) : SameOrLeftAlone x y s t s' t' := by
  obtain ⟨hc, rfl⟩ | ⟨hc, rfl⟩ := whenReady_next ht <;> obtain ⟨hc', rfl⟩ | ⟨hc', rfl⟩ := whenReady_next ht'
  · exact hf s s' hcfg x y hb
  · exact absurd (hctrl.trans hc) hc'
  · exact absurd (hctrl.symm.trans hc') hc
  · exact .inr ⟨rfl, rfl⟩

/-- Settles O49: a list of plots has its points from the operands alone, and a clear writes every byte in use. -/
theorem drawingIgnoresOldContent : Obligations.DrawingIgnoresOldContent := by
  intro i s t s' t' hd hs' ht ht' x y hb
  have hctrl : s'.ctrl = s.ctrl := by rw [hs']
  have hcfg : s'.cfg = s.cfg := by rw [hs']
  obtain ⟨set, ps, he⟩ | he := exec_drawing hd <;> rw [he] at ht ht'
  · exact whenReady_ignoresOldContent (plotAll_ignoresOldContent set ps) hctrl hcfg ht ht' hb
  · exact whenReady_ignoresOldContent clearAll_ignoresOldContent hctrl hcfg ht ht' hb

end Sys2Proof.Machine
end

section
/-! PROOF. 30_encoding.md: the two encodings are bijections (R81, R82, R93, R100), what the decoder refuses (R94, 60_exceptions.md R253), and
what each device command sends (R101, R102). -/

namespace Sys2Proof

open Machine

/-! ### Fields (R82) -/

@[simp] theorem s16_lowByte_highByte (v : S16) : s16 (lowByte v) (highByte v) = v :=
  (BitVec.extractLsb'_append_extractLsb'_eq_extractLsb' rfl).trans BitVec.extractLsb'_eq_self

@[simp] theorem lowByte_s16 (lo hi : Byte) : lowByte (s16 lo hi) = lo := BitVec.extractLsb'_append_eq_right

@[simp] theorem highByte_s16 (lo hi : Byte) : highByte (s16 lo hi) = hi := BitVec.extractLsb'_append_eq_left

theorem byte_eq_of_toNat {b : Byte} {n : Nat} (h : b.toNat = n) : b = BitVec.ofNat 8 n := (BitVec.toNat_eq_nat.1 h).2

/-- Without a reserved bit a flags byte is a number of `n` bits. -/
theorem reservedSet_eq_false_iff {n : Nat} {f : Byte} : reservedSet n f = false ↔ f.toNat < 2 ^ n := by
  simp [reservedSet, ← BitVec.toNat_inj, Nat.shiftRight_eq_div_pow]

theorem reservedSet_eq_true_iff {n : Nat} {f : Byte} : reservedSet n f = true ↔ 2 ^ n ≤ f.toNat := by
  rw [← Bool.not_eq_false, reservedSet_eq_false_iff, Nat.not_lt]

@[simp] theorem reservedSet_flagBit (b : Bool) : reservedSet 1 (flagBit 0 b) = false := by cases b <;> rfl

@[simp] theorem getElem_flagBit {k : Nat} (n : Nat) (b : Bool) (hk : k < 8) : (flagBit n b)[k] = (decide (n = k) && b) := by
  cases b
  · simp [flagBit]
  · rw [show flagBit n true = BitVec.twoPow 8 n from rfl, BitVec.getElem_twoPow]
    simp [eq_comm]

@[simp] theorem flagBit_getElem {f : Byte} (h : reservedSet 1 f = false) : flagBit 0 f[0] = f := by
  have hlt : f.toNat < 2 := reservedSet_eq_false_iff.1 h
  interval_cases hv : f.toNat <;> rw [byte_eq_of_toNat hv] <;> rfl

/-- BOX's flags byte is the one with two flags (R89). -/
@[simp] theorem reservedSet_boxFlags (filled set : Bool) : reservedSet 2 (flagBit 1 filled ||| flagBit 0 set) = false := by
  cases filled <;> cases set <;> rfl

@[simp] theorem boxFlags_getElem {f : Byte} (h : reservedSet 2 f = false) :
    flagBit 1 f[1] ||| flagBit 0 f[0] = f := by
  have hlt : f.toNat < 4 := reservedSet_eq_false_iff.1 h
  interval_cases hv : f.toNat <;> rw [byte_eq_of_toNat hv] <;> rfl

/-- DRAWTEXT's length byte holds every length up to 255 (R92). -/
theorem lengthByte_toNat {text : List Byte} (h : text.length ≤ 255) : (BitVec.ofNat 8 text.length).toNat = text.length :=
  Nat.mod_eq_of_lt (Nat.lt_succ_of_le h)

/-- Bit 7 of an address byte, the reserved one (R84). -/
theorem addressBit_eq_false_iff {a : Byte} : a.getLsbD 7 = false ↔ a.toNat < 0x80 := by
  have hm : a.msb = a.getLsbD 7 := BitVec.msb_eq_getLsbD_last a
  rw [← hm, BitVec.msb_eq_false_iff_two_mul_lt]
  omega

theorem addressBit_eq_true_iff {a : Byte} : a.getLsbD 7 = true ↔ 0x80 ≤ a.toNat := by
  rw [← Bool.not_eq_false, addressBit_eq_false_iff, Nat.not_lt]

/-- With bit 7 clear an address byte is a 7-bit address. -/
theorem addressByte_setWidth {a : Byte} (h : a.getLsbD 7 = false) : (a.setWidth 7).setWidth 8 = a := by
  have hlt := addressBit_eq_false_iff.1 h
  apply BitVec.eq_of_toNat_eq
  simp only [BitVec.toNat_setWidth]
  omega

/-! ### The opcode selects the format (R80, R94)

An equation for each opcode whose format has a field that is not a byte as it stands. -/

@[simp] theorem decodeDescriptor_construct (body : List Byte) : decodeDescriptor (0x00#8 :: body) = decodeCon body := rfl
@[simp] theorem decodeDescriptor_setInvert (body : List Byte) : decodeDescriptor (0x05#8 :: body) = decodeFlg body := rfl
@[simp] theorem decodeDescriptor_setPixel (body : List Byte) : decodeDescriptor (0x06#8 :: body) = decodePix .setPixel body := rfl
@[simp] theorem decodeDescriptor_clearPixel (body : List Byte) :
    decodeDescriptor (0x07#8 :: body) = decodePix .clearPixel body := rfl
@[simp] theorem decodeDescriptor_drawLine (body : List Byte) : decodeDescriptor (0x08#8 :: body) = decodeLin body := rfl
@[simp] theorem decodeDescriptor_drawBox (body : List Byte) : decodeDescriptor (0x09#8 :: body) = decodeBox body := rfl
@[simp] theorem decodeDescriptor_drawChar (body : List Byte) : decodeDescriptor (0x0A#8 :: body) = decodeChr body := rfl
@[simp] theorem decodeDescriptor_drawText (body : List Byte) : decodeDescriptor (0x0B#8 :: body) = decodeTxt body := rfl

/-- Settles O3: the decoder's last branch, which is reached by the opcodes of no format. -/
theorem reservedOpcodesAreRefused : Obligations.ReservedOpcodesAreRefused := by
  intro op body h
  simp only [decodeDescriptor]
  split
  case h_13 => rfl
  all_goals omega

/-! ### The length of a format (R93) -/

theorem textDescriptor_length_iff (x0 x1 y0 y1 f len : Byte) (text : List Byte) :
    (0x0B :: x0 :: x1 :: y0 :: y1 :: f :: len :: text).length =
      descriptorLength (0x0B :: x0 :: x1 :: y0 :: y1 :: f :: len :: text) ↔ text.length = len.toNat := by
  rw [show descriptorLength (0x0B :: x0 :: x1 :: y0 :: y1 :: f :: len :: text) = 7 + len.toNat from rfl]
  simp only [List.length_cons]
  omega

/-! ### What decoding a descriptor can answer (R93, R94, 60_exceptions.md R253) -/

/-- The answers of the decoder: the opcode is reserved, the length is not the format's, a reserved bit is 1, or the descriptor is the encoding
of the instruction answered. -/
inductive DescriptorResult (d : List Byte) : Except RefusalCause Instr → Prop where
  | reservedOpcode (h : 0x0C ≤ (d.getD 0 0).toNat) : DescriptorResult d (.error .reservedOpcode)
  | wrongLength (h : d.length ≠ descriptorLength d) : DescriptorResult d (.error .wrongLength)
  | reservedBit (h : d.length = descriptorLength d) : DescriptorResult d (.error .reservedBit)
  | decoded (i : Instr) (h : d.length = descriptorLength d) (he : encode i = .operation d) : DescriptorResult d (.ok i)

theorem decodeNul_result {op : Byte} {i : Instr} (hlen : ∀ body, descriptorLength (op :: body) = 1)
    (he : encode i = .operation [op]) (body : List Byte) : DescriptorResult (op :: body) (decodeNul i body) := by
  fun_cases decodeNul i body with
  | case1 => exact .decoded i (hlen []).symm he
  | case2 _ h => exact .wrongLength (by simpa [hlen] using h)

theorem decodeCon_result (body : List Byte) : DescriptorResult (0x00 :: body) (decodeCon body) := by
  fun_cases decodeCon body with
  | case1 => exact .reservedBit rfl
  | case2 w h a f hr =>
    simp only [Bool.or_eq_true, not_or, Bool.not_eq_true] at hr
    obtain ⟨ha, hf⟩ := hr
    exact .decoded _ rfl (by simp [encode, addressByte_setWidth ha, hf])
  | case3 _ h =>
    refine .wrongLength fun hl => ?_
    match body, hl with
    | [_, _, _, _], _ => exact h _ _ _ _ rfl

theorem decodeU8_result (body : List Byte) : DescriptorResult (0x04 :: body) (decodeU8 body) := by
  fun_cases decodeU8 body with
  | case1 => exact .decoded _ rfl rfl
  | case2 _ h =>
    refine .wrongLength fun hl => ?_
    match body, hl with
    | [_], _ => exact h _ rfl

theorem decodeFlg_result (body : List Byte) : DescriptorResult (0x05 :: body) (decodeFlg body) := by
  fun_cases decodeFlg body with
  | case1 => exact .reservedBit rfl
  | case2 f hf => exact .decoded _ rfl (by simp [encode, hf])
  | case3 _ h =>
    refine .wrongLength fun hl => ?_
    match body, hl with
    | [_], _ => exact h _ rfl

theorem decodePix_result {op : Byte} {mk : S16 → S16 → Instr} (hlen : ∀ body, descriptorLength (op :: body) = 5)
    (he : ∀ x y, encode (mk x y) = .operation [op, lowByte x, highByte x, lowByte y, highByte y]) (body : List Byte) :
    DescriptorResult (op :: body) (decodePix mk body) := by
  fun_cases decodePix mk body with
  | case1 x0 x1 y0 y1 => exact .decoded _ (hlen _).symm (by simp [he])
  | case2 _ h =>
    refine .wrongLength fun hl => ?_
    rw [hlen] at hl
    match body, hl with
    | [_, _, _, _], _ => exact h _ _ _ _ rfl

theorem decodeLin_result (body : List Byte) : DescriptorResult (0x08 :: body) (decodeLin body) := by
  fun_cases decodeLin body with
  | case1 => exact .reservedBit rfl
  | case2 x0 x1 y0 y1 u0 u1 v0 v1 f hf => exact .decoded _ rfl (by simp [encode, hf])
  | case3 _ h =>
    refine .wrongLength fun hl => ?_
    match body, hl with
    | [_, _, _, _, _, _, _, _, _], _ => exact h _ _ _ _ _ _ _ _ _ rfl

theorem decodeBox_result (body : List Byte) : DescriptorResult (0x09 :: body) (decodeBox body) := by
  fun_cases decodeBox body with
  | case1 => exact .reservedBit rfl
  | case2 x0 x1 y0 y1 w0 w1 h0 h1 f hf => exact .decoded _ rfl (by simp [encode, hf])
  | case3 _ h =>
    refine .wrongLength fun hl => ?_
    match body, hl with
    | [_, _, _, _, _, _, _, _, _], _ => exact h _ _ _ _ _ _ _ _ _ rfl

theorem decodeChr_result (body : List Byte) : DescriptorResult (0x0A :: body) (decodeChr body) := by
  fun_cases decodeChr body with
  | case1 => exact .reservedBit rfl
  | case2 x0 x1 y0 y1 ch f hf => exact .decoded _ rfl (by simp [encode, hf])
  | case3 _ h =>
    refine .wrongLength fun hl => ?_
    match body, hl with
    | [_, _, _, _, _, _], _ => exact h _ _ _ _ _ _ rfl

theorem decodeTxt_result (body : List Byte) : DescriptorResult (0x0B :: body) (decodeTxt body) := by
  fun_cases decodeTxt body with
  | case1 x0 x1 y0 y1 f len text hne => exact .wrongLength (mt (textDescriptor_length_iff ..).1 hne)
  | case2 x0 x1 y0 y1 f len text heq =>
    exact .reservedBit ((textDescriptor_length_iff ..).2 (not_not.1 heq))
  | case3 x0 x1 y0 y1 f len text heq hf =>
    have htext : text.length = len.toNat := not_not.1 heq
    exact .decoded _ ((textDescriptor_length_iff ..).2 htext) (by simp [encode, hf, htext])
  | case4 _ h =>
    refine .wrongLength fun hl => ?_
    have hlen : body.length = 6 + (body.getD 5 0).toNat := by
      rw [show descriptorLength (0x0B :: body) = 7 + (body.getD 5 0).toNat from rfl, List.length_cons] at hl
      omega
    match body, hlen with
    | _ :: _ :: _ :: _ :: _ :: _ :: _, _ => exact h _ _ _ _ _ _ _ rfl

/-- A descriptor of no bytes counts as one of opcode 0 that ends too early (log 15). -/
theorem decodeDescriptor_result (d : List Byte) : DescriptorResult d (decodeDescriptor d) := by
  cases d with
  | nil => exact .wrongLength (by decide)
  | cons op body =>
    by_cases hop : 0x0C ≤ op.toNat
    · rw [reservedOpcodesAreRefused op body hop]
      exact .reservedOpcode hop
    · interval_cases h : op.toNat <;> obtain rfl := byte_eq_of_toNat h
      · exact decodeCon_result body
      · exact decodeNul_result (fun _ => rfl) rfl body
      · exact decodeNul_result (fun _ => rfl) rfl body
      · exact decodeNul_result (fun _ => rfl) rfl body
      · exact decodeU8_result body
      · exact decodeFlg_result body
      · exact decodePix_result (fun _ => rfl) (fun _ _ => rfl) body
      · exact decodePix_result (fun _ => rfl) (fun _ _ => rfl) body
      · exact decodeLin_result body
      · exact decodeBox_result body
      · exact decodeChr_result body
      · exact decodeTxt_result body

/-! ### The bijection (R81) -/

theorem decode_operation_iff {d : List Byte} {i : Instr} : decode (.operation d) = .ok i ↔ decodeDescriptor d = .ok i := by
  cases h : decodeDescriptor d <;> simp [decode, h]

theorem decode_command_iff {w : CmdWord} {i : Instr} : decode (.command w) = .ok i ↔ decodeCommand w = some i := by
  cases h : decodeCommand w <;> simp [decode, h]

/-- Settles O1: a field that is encoded is read back, and the commands have no fields but whole bytes. -/
theorem decodeInvertsEncode : Obligations.DecodeInvertsEncode := by
  intro i hwf
  cases i with
  | construct w h a e => simp [encode, decode_operation_iff, decodeCon]
  | setInvert b => simp [encode, decode_operation_iff, decodeFlg]
  | setPixel x y => simp [encode, decode_operation_iff, decodePix]
  | clearPixel x y => simp [encode, decode_operation_iff, decodePix]
  | drawLine x1 y1 x2 y2 set => simp [encode, decode_operation_iff, decodeLin]
  | drawBox x y w h filled set => simp [encode, decode_operation_iff, decodeBox]
  | drawChar x y ch set => simp [encode, decode_operation_iff, decodeChr]
  | drawText x y set text =>
    have hlen : text.length ≤ 255 := of_decide_eq_true hwf
    simp [encode, decode_operation_iff, decodeTxt, lengthByte_toNat hlen]
  | _ => rfl

theorem encode_of_decodeCommand {w : CmdWord} {i : Instr} (h : decodeCommand w = some i) : encode i = .command w := by
  cases w with
  | cmd0 op =>
    simp only [decodeCommand, decodeCmd0] at h
    split at h <;> cases h
    all_goals rw [byte_eq_of_toNat ‹op.toNat = _›]; rfl
  | cmd1 op a1 =>
    simp only [decodeCommand, decodeCmd1] at h
    split at h <;> cases h
    all_goals rw [byte_eq_of_toNat ‹op.toNat = _›]; rfl
  | cmd2 op a1 a2 =>
    simp only [decodeCommand, decodeCmd2] at h
    split at h <;> cases h
    all_goals rw [byte_eq_of_toNat ‹op.toNat = _›]; rfl
  | data => cases h; rfl

theorem encode_of_decodeDescriptor {d : List Byte} {i : Instr} (h : decodeDescriptor d = .ok i) : encode i = .operation d := by
  have hr := decodeDescriptor_result d
  rw [h] at hr
  cases hr with
  | decoded _ _ he => exact he

/-- Settles O2: every answer of the two decoders that is an instruction carries its encoding. -/
theorem encodeInvertsDecode : Obligations.EncodeInvertsDecode := by
  intro c i h
  cases c with
  | operation d => exact encode_of_decodeDescriptor (decode_operation_iff.1 h)
  | command w => exact encode_of_decodeCommand (decode_command_iff.1 h)

/-! ### Refusals -/

theorem descriptorLength_of_known {op : Byte} (body : List Byte) (h : op.toNat ≤ 0x0B) :
    descriptorLength (op :: body) =
      if op.toNat = 0x0B then 7 + ((op :: body).getD 6 0).toNat else [5, 1, 1, 1, 2, 2, 5, 5, 10, 10, 7].getD op.toNat 0 := by
  interval_cases hop : op.toNat <;> obtain rfl := byte_eq_of_toNat hop <;> rfl

/-- Settles O4: each answer of the decoder but the refusal for its length is given at the length of the format only. -/
theorem lengthIsCheckedExactly : Obligations.LengthIsCheckedExactly := by
  intro op body hop
  rw [← descriptorLength_of_known body hop]
  have hr := decodeDescriptor_result (op :: body)
  generalize decodeDescriptor (op :: body) = answer at hr ⊢
  cases hr with
  | reservedOpcode h => exact absurd h (Nat.not_le.2 (Nat.lt_succ_of_le hop))
  | wrongLength h => simpa using h
  | reservedBit h => simpa using h
  | decoded i h _ => simpa using h

/-- Settles O5: each of these descriptors has the length of its format, so what is left of the decoder is its test for a reserved bit. -/
theorem reservedBitsAreRefused : Obligations.ReservedBitsAreRefused := by
  intro b0 b1 b2 b3 b4 b5 b6 b7 f text
  refine ⟨fun hf => ?_, fun hf => ?_, fun ha => ?_⟩
  · have hr : reservedSet 1 f = true := reservedSet_eq_true_iff.2 hf
    refine ⟨if_pos (by simp [hr]), if_pos hr, if_pos hr, if_pos hr, fun htext => ?_⟩
    exact (if_neg (not_not.2 (lengthByte_toNat htext).symm)).trans (if_pos hr)
  · exact if_pos (reservedSet_eq_true_iff.2 hf)
  · have hr : b2.getLsbD 7 = true := addressBit_eq_true_iff.2 ha
    exact if_pos (by rw [hr, Bool.true_or])

/-- Settles O6: each is one run of the decoder. -/
theorem workedEncodingsDecode : Obligations.WorkedEncodingsDecode :=
  ⟨rfl, rfl, rfl, rfl, rfl, rfl, rfl, rfl, rfl, rfl, rfl, rfl, rfl, rfl, rfl, rfl, rfl⟩

/-! ### Device commands (R100 to R102) -/

/-- Settles O35: the reading of each opcode of the closed set, one by one. -/
theorem sequencerPerformsDecodedCommands : Obligations.SequencerPerformsDecodedCommands :=
  fun _ _ s h => exec_of_decodeCommand h s

/-- A command sends the transactions of the word it is decoded from. -/
theorem emits_of_decodeCommand {w : CmdWord} {i : Instr} {s : State} (hd : decodeCommand w = some i) (hw : w ≠ .data)
    (hb : s.blocked = false) (ha : Answers s) : Emits i s (wordBytes [] w) := by
  rw [Emits, exec_of_decodeCommand hd, performWord_answered hb ha hw []]

/-- Settles O31: each is the instruction of a word without an argument, which sends [00 op]. -/
theorem commandsWithoutArgument : Obligations.CommandsWithoutArgument := by
  intro s hb ha
  have emits {op : Byte} {i : Instr} (hd : decodeCommand (.cmd0 op) = some i) : Emits i s [[0x00, op]] :=
    emits_of_decodeCommand hd nofun hb ha
  exact ⟨emits rfl, emits rfl, emits rfl, emits rfl, emits rfl, emits rfl, emits rfl, emits rfl⟩

/-- Settles O32: each is the instruction of a word with one argument, sent after the opcode. -/
theorem commandsWithOneArgument : Obligations.CommandsWithOneArgument := by
  intro a1 s hb ha
  have emits {op : Byte} {i : Instr} (hd : decodeCommand (.cmd1 op a1) = some i) : Emits i s [[0x00, op], [0x00, a1]] :=
    emits_of_decodeCommand hd nofun hb ha
  exact ⟨emits rfl, emits rfl, emits rfl, emits rfl, emits rfl, emits rfl, emits rfl, emits rfl, emits rfl⟩

/-- Settles O33: both are the instruction of a word with two arguments, sent in order after the opcode. -/
theorem commandsWithTwoArguments : Obligations.CommandsWithTwoArguments := by
  intro a1 a2 s hb ha
  have emits {op : Byte} {i : Instr} (hd : decodeCommand (.cmd2 op a1 a2) = some i) :
      Emits i s [[0x00, op], [0x00, a1], [0x00, a2]] := emits_of_decodeCommand hd nofun hb ha
  exact ⟨emits rfl, emits rfl⟩

/-- Settles O34: an answered data transfer writes the control byte only, and the frame it sends begins with it. -/
theorem dataTransferCommand : Obligations.DataTransferCommand := by
  intro s hb ha
  refine ⟨dataTransfer s, rfl, ?_⟩
  rw [dataTransfer_answered hb ha, fbBytes_control]
  refine ⟨rfl, ?_, fun a h0 => ?_, by simp [pixelBytes]⟩
  · exact fbRead_fbWrite_self 0 0x40 s
  · exact fbRead_fbWrite_other 0x40 s h0

end Sys2Proof
end

section
/-! PROOF. 40_framebuffer.md: what a plot and a clear do to the bytes (R120 to R122, R125), the three operations made of them (R123, R124,
R126), and the pixel query after them and the order of two plots (R127). -/

namespace Sys2Proof.Machine

/-! ### The primitives -/

theorem pixelMask_eq {y : Int} (hy : 0 ≤ y) : pixelMask y = (1 : Byte) <<< (y % 8).toNat := by
  rw [← pixelBit_int hy, Int.toNat_natCast, pixelMask]

/-- Settles O54: what a plot does to a byte, with the bounds, the address and the mask written out. -/
theorem pixelPrimitives : Obligations.PixelPrimitives := by
  intro set x y s
  refine ⟨plot_onlyFb set x y s, fun a => ?_⟩
  rw [fbRead_plot]
  by_cases hb : inBounds s.cfg x y = true
  · obtain ⟨-, -, hy, -⟩ := inBounds_iff.1 hb
    have haddr : (a = pixelIndex s.cfg x y) ↔ (a : Int) = 1 + s.cfg.width.toNat * (y / 8) + x := by
      rw [← pixelIndex_int hb, Int.natCast_inj]
    simp only [← inBounds_iff, hb, true_and, haddr, applyMask, pixelMask_eq hy]
  · rw [if_neg fun h => hb h.1, if_neg fun h => hb (inBounds_iff.2 h.1)]

/-- Every in-bounds pixel lies in a byte in use. -/
theorem pixel_clearAll {s : State} (hl : CfgLegal s.cfg) {x y : Int} (hb : inBounds s.cfg x y = true) :
    pixel (clearAll s) x y = false := by
  rw [pixel, clearAll_cfg, fbRead_clearAll, if_pos (pixelIndex_lt_fbLen hl hb)]
  exact BitVec.getLsbD_zero

/-- Settles O55: the bytes in use begin with the control byte and hold every in-bounds pixel. -/
theorem clearAllPrimitive : Obligations.ClearAllPrimitive := by
  intro s
  refine ⟨clearAll_onlyFb s, fbRead_clearAll s, ?_, fun hl x y => pixel_clearAll hl⟩
  exact (fbRead_clearAll s 0).trans (if_pos (Nat.succ_pos _))

/-! ### The operations -/

theorem whenReady_of_ready {s : State} (f : State → State) (hr : s.ctrl = .ready) : whenReady f s = .next (f s) := if_pos hr

/-- A gated operation, whose effect makes `P` hold, completes with `P` while Ready and is refused while Uninitialized (44_controller.md
R214). -/
theorem gated_operation {i : Instr} {f : State → State} {s : State} {P : State → Prop} (he : exec i s = whenReady f s) (hf : P (f s)) :
    (s.ctrl = .ready → ∃ t, exec i s = .next t ∧ P t) ∧ (s.ctrl = .uninitialized → RefusedWrongState i s) := by
  refine ⟨fun hr => ⟨f s, he.trans (whenReady_of_ready f hr), hf⟩, fun hu => ?_⟩
  have hn : s.ctrl ≠ .ready := by simp [hu]
  exact he.trans (if_neg hn)

/-- Settles O8: a gated plot with `set = 1`. -/
theorem setPixelOperation : Obligations.SetPixelOperation := fun x y s =>
  gated_operation (f := plot true x.toInt y.toInt) rfl ⟨plot_onlyFb true _ _ s, fbRead_plot true _ _ s⟩

/-- Settles O9: a gated plot with `set = 0`. -/
theorem clearPixelOperation : Obligations.ClearPixelOperation := fun x y s =>
  gated_operation (f := plot false x.toInt y.toInt) rfl ⟨plot_onlyFb false _ _ s, fbRead_plot false _ _ s⟩

/-- Settles O10: a gated `clearAll`. -/
theorem clearOperation : Obligations.ClearOperation := fun s =>
  gated_operation (f := clearAll) rfl ⟨clearAll_onlyFb s, fbRead_clearAll s⟩

/-! ### The pixel query after an operation (R127 (a), (b), (c)) -/

/-- No plot reaches the control byte (20_memory.md R50). -/
theorem fbRead_plot_control (set : Bool) (x y : Int) (s : State) : fbRead (plot set x y s) 0 = fbRead s 0 := by
  have hpos : 0 ≠ pixelIndex s.cfg x y := Nat.ne_of_lt (pixelIndex_pos s.cfg x y)
  rw [fbRead_plot, if_neg fun h => hpos h.2]

/-- SETPIXEL and CLEARPIXEL are the gated plots of the two values of `set` (R123, R124). -/
theorem exec_plot (set : Bool) (x y : S16) (s : State) :
    exec (if set then .setPixel x y else .clearPixel x y) s = whenReady (plot set x.toInt y.toInt) s := by
  cases set <;> rfl

/-- Settles O11: the query after one plot and after a clear. -/
theorem pixelQueryLaws : Obligations.PixelQueryLaws := by
  intro x y set s hr
  rw [exec_plot, whenReady_of_ready _ hr]
  refine ⟨fun hb => ⟨_, rfl, ?_, fun px py hp hne => ?_, fbRead_plot_control set _ _ s⟩, fun hb => ?_,
    fun hl => ⟨_, whenReady_of_ready clearAll hr, fun px py => pixel_clearAll hl⟩⟩
  · rw [pixel_plot _ _ _ _ hb, if_pos ⟨rfl, rfl⟩]
  · rw [pixel_plot _ _ _ _ hp, if_neg fun h => hne (Prod.ext h.1 h.2)]
  · rw [plot_outOfBounds set hb]

/-! ### The order of two plots (R127 (d)) -/

/-- A plot stores its pixel's byte, and no other. -/
theorem isSome_memRead_plot (set : Bool) (x y : Int) (s : State) (a : Nat) :
    (memRead (plot set x y s).fb a).isSome =
      (decide (inBounds s.cfg x y = true ∧ a = pixelIndex s.cfg x y) || (memRead s.fb a).isSome) := by
  by_cases hb : inBounds s.cfg x y = true
  · by_cases ha : a = pixelIndex s.cfg x y
    · subst ha
      simp [plot, hb]
    · simp [plot, hb, ha, memRead_memWrite_other]
  · simp [plot, hb]

theorem onlyFb_trans {s t u : State} (h : OnlyFb s t) (k : OnlyFb t u) : OnlyFb s u :=
  k.trans (by rw [h])

/-- A byte that is not stored reads as a free value, so reading alone does not tell it from a stored one (log 3): the same byte is read and
both states store it or neither does. -/
theorem memRead_eq_of_fbRead_eq {t u : State} {a : Nat} (hstored : (memRead t.fb a).isSome = (memRead u.fb a).isSome)
    (hread : fbRead t a = fbRead u a) : memRead t.fb a = memRead u.fb a := by
  unfold fbRead at hread
  cases ht : memRead t.fb a <;> cases hu : memRead u.fb a <;> simp_all

/-- States in canonical form that differ in the framebuffer only are equal when they store the same indices and every byte reads the same. -/
theorem eq_of_fbRead {s t u : State} (ht : OnlyFb s t) (hu : OnlyFb s u) (htw : Memory.wf t.fb) (huw : Memory.wf u.fb)
    (hstored : ∀ a, (memRead t.fb a).isSome = (memRead u.fb a).isSome) (hread : ∀ a, fbRead t a = fbRead u a) : t = u := by
  have hfb : t.fb = u.fb := memory_ext htw huw fun a => memRead_eq_of_fbRead_eq (hstored a) (hread a)
  rw [ht, hu, hfb]

theorem plot_plot_onlyFb (set set' : Bool) (x y x' y' : Int) (s : State) : OnlyFb s (plot set x y (plot set' x' y' s)) :=
  onlyFb_trans (plot_onlyFb ..) (plot_onlyFb ..)

/-- A bit of the framebuffer belongs to one pixel (20_memory.md R52). -/
theorem eq_of_touches {cfg : Cfg} {p q : Point} {a k : Nat} (hp : touches cfg [p] a k = true) (hq : touches cfg [q] a k = true) :
    p = q := by
  simp only [touches_iff, List.mem_singleton, exists_eq_left] at hp hq
  obtain ⟨hpb, hpa, hpk⟩ := hp
  obtain ⟨hqb, hqa, hqk⟩ := hq
  obtain ⟨hx, hy⟩ := pixelAddress_injective hpb hqb (hpa.symm.trans hqa) (hpk.symm.trans hqk)
  exact Prod.ext hx hy

/-- After two plots a bit has the value of the later one that reaches it. -/
theorem getLsbD_plot_plot (set set' : Bool) (x y x' y' : Int) (s : State) (a : Nat) {k : Nat} (hk : k < 8) :
    (fbRead (plot set x y (plot set' x' y' s)) a).getLsbD k =
      if touches s.cfg [(x, y)] a k then set else if touches s.cfg [(x', y')] a k then set' else (fbRead s a).getLsbD k := by
  rw [getLsbD_plot set (x, y) _ a hk, getLsbD_plot set' (x', y') s a hk, plot_cfg]

/-- Two plots of one value, or of two pixels, commute: a bit that both reach belongs to one pixel. -/
theorem plot_comm {set set' : Bool} {x y x' y' : Int} {s : State} (hw : Memory.wf s.fb) (h : set = set' ∨ (x, y) ≠ (x', y')) :
    plot set x y (plot set' x' y' s) = plot set' x' y' (plot set x y s) := by
  refine eq_of_fbRead (plot_plot_onlyFb ..) (plot_plot_onlyFb ..) (plot_wf _ _ _ (plot_wf _ _ _ hw)) (plot_wf _ _ _ (plot_wf _ _ _ hw))
    (fun a => ?_) fun a => BitVec.eq_of_getLsbD_eq fun k hk => ?_
  · simp only [isSome_memRead_plot, plot_cfg]
    exact Bool.or_left_comm ..
  · rw [getLsbD_plot_plot _ _ _ _ _ _ _ _ hk, getLsbD_plot_plot _ _ _ _ _ _ _ _ hk]
    cases hp : touches s.cfg [(x, y)] a k <;> cases hq : touches s.cfg [(x', y')] a k
    case true.true => exact h.resolve_right (not_not.2 (eq_of_touches hp hq))
    all_goals rfl

/-- On one pixel the later plot wins. -/
theorem plot_plot_self (set set' : Bool) (x y : Int) {s : State} (hw : Memory.wf s.fb) :
    plot set x y (plot set' x y s) = plot set x y s := by
  refine eq_of_fbRead (plot_plot_onlyFb ..) (plot_onlyFb ..) (plot_wf _ _ _ (plot_wf _ _ _ hw)) (plot_wf _ _ _ hw)
    (fun a => ?_) fun a => BitVec.eq_of_getLsbD_eq fun k hk => ?_
  · simp only [isSome_memRead_plot, plot_cfg]
    exact Bool.or_self_left ..
  · rw [getLsbD_plot_plot _ _ _ _ _ _ _ _ hk, getLsbD_plot set (x, y) s a hk]
    cases touches s.cfg [(x, y)] a k <;> rfl

/-- Settles O12: both orders store the same indices and force the same bits. -/
theorem plotsCommute : Obligations.PlotsCommute := fun set set' x y _ _ _ hw => ⟨plot_comm hw, plot_plot_self set set' x y hw⟩

end Sys2Proof.Machine
end

section
/-! PROOF. 41_line.md: the loop of the `line` primitive (R141), the laws of its points and of its error term (R142, R143), the worked trace
(R144) and DRAWLINE (R140). -/

namespace Sys2Proof.Machine

/-! ### The moves along the two axes

Counted in moves, a line has no direction: with `D = dx` and `N = |dy|`, the point after `i` moves along x and `j` along y has the error
`D * (j + 1) - N * (i + 1)`, and the end point is `(i, j) = (D, N)`. -/

/-- What holds at the top of iteration `k`, counted from 0, when `i` of the moves were along x and `j` along y. -/
structure LineAt (D N k i j : Nat) (err : Int) : Prop where
  errEq : err = D * (j + 1) - N * (i + 1)
  xLe : i ≤ D
  yLe : j ≤ N
  xMajor : N ≤ D → i = k ∧ -N ≤ 2 * err
  yMajor : D ≤ N → j = k ∧ 2 * err ≤ D
  errLower : 3 * -N ≤ 2 * err
  errUpper : 2 * err ≤ 3 * D

namespace LineAt

theorem start (D N : Nat) : LineAt D N 0 0 0 (D + -N) := by
  constructor <;> omega

variable {D N k i j : Nat} {err : Int}

/-- The two axes are alike: exchanging them negates the error. -/
theorem swap (h : LineAt D N k i j err) : LineAt N D k j i (-err) where
  errEq := by rw [h.errEq]; ring
  xLe := h.yLe
  yLe := h.xLe
  xMajor hle := ⟨(h.yMajor hle).1, by have := (h.yMajor hle).2; omega⟩
  yMajor hle := ⟨(h.xMajor hle).1, by have := (h.xMajor hle).2; omega⟩
  errLower := by have := h.errUpper; omega
  errUpper := by have := h.errLower; omega

/-- Before iteration `max(dx, |dy|)` the major axis is not done. -/
theorem not_end (h : LineAt D N k i j err) (hk : k < max D N) : ¬ (i = D ∧ j = N) := by
  obtain hle | hle := Nat.le_total N D
  · have := (h.xMajor hle).1
    omega
  · have := (h.yMajor hle).1
    omega

/-- While x is done and y is not, the error is at most `dy`. -/
theorem err_le_of_x_done (h : LineAt D N k D j err) (hj : j < N) : err ≤ -N := by
  have hmoves : (D : Int) * (j + 1) ≤ D * N := mul_le_mul_of_nonneg_left (by exact_mod_cast hj) (Int.natCast_nonneg D)
  calc err = D * (j + 1) - N * (D + 1) := h.errEq
    _ ≤ D * N - N * (D + 1) := by omega
    _ = -N := by ring

/-- x advances only while it has moves left: once it is done, the error is too small. -/
theorem x_lt_of_advance (h : LineAt D N k i j err) (hk : k < max D N) (hx : 2 * err ≥ -N) : i < D := by
  refine lt_of_le_of_ne h.xLe ?_
  rintro rfl
  have hj : j < N := lt_of_le_of_ne h.yLe fun hj => h.not_end hk ⟨rfl, hj⟩
  have herr := h.err_le_of_x_done hj
  omega

theorem y_lt_of_advance (h : LineAt D N k i j err) (hk : k < max D N) (hy : 2 * err ≤ D) : j < N :=
  h.swap.x_lt_of_advance (by rwa [max_comm]) (by omega)

/-- One iteration of the loop. -/
theorem step (h : LineAt D N k i j err) (hk : k < max D N) :
    LineAt D N (k + 1) (if 2 * err ≥ -N then i + 1 else i) (if 2 * err ≤ D then j + 1 else j)
      (err + (if 2 * err ≥ -N then -(N : Int) else 0) + (if 2 * err ≤ D then (D : Int) else 0)) := by
  have hx := h.x_lt_of_advance hk
  have hy := h.y_lt_of_advance hk
  obtain ⟨herr, hi, hj, hxMajor, hyMajor, hlower, hupper⟩ := h
  constructor
  case errEq => split_ifs <;> push_cast <;> linarith
  all_goals clear herr; split_ifs <;> omega

/-- With x the major axis and all its moves done, y is done too. -/
theorem y_done_of_x_done (h : LineAt D N D D j err) (hle : N ≤ D) : j = N := by
  refine le_antisymm h.yLe (not_lt.1 fun hj => ?_)
  have herr := h.err_le_of_x_done hj
  have hmajor := (h.xMajor hle).2
  omega

/-- Iteration `max(dx, |dy|)` stands at the end point. -/
theorem at_end (h : LineAt D N (max D N) i j err) : i = D ∧ j = N := by
  obtain hle | hle := Nat.le_total N D
  · rw [max_eq_left hle] at h
    obtain rfl := (h.xMajor hle).1
    exact ⟨rfl, h.y_done_of_x_done hle⟩
  · rw [max_eq_right hle] at h
    obtain rfl := (h.yMajor hle).1
    exact ⟨h.swap.y_done_of_x_done hle, rfl⟩

end LineAt

/-! ### The iterations -/

/-- The updates of one iteration (R141): both tests on one `e2 = 2 * err`. -/
def lineNext (x1 y1 x2 y2 : Int) (e : Int × Int × Int) : Int × Int × Int :=
  (if 2 * e.2.2 ≥ lineDy y1 y2 then e.1 + stepSign x1 x2 else e.1,
    if 2 * e.2.2 ≤ lineDx x1 x2 then e.2.1 + stepSign y1 y2 else e.2.1,
    e.2.2 + (if 2 * e.2.2 ≥ lineDy y1 y2 then lineDy y1 y2 else 0) + (if 2 * e.2.2 ≤ lineDx x1 x2 then lineDx x1 x2 else 0))

/-- The point and the error at the top of iteration `k`, counted from 0. -/
def lineState (x1 y1 x2 y2 : Int) (k : Nat) : Int × Int × Int :=
  (lineNext x1 y1 x2 y2)^[k] (x1, y1, lineDx x1 x2 + lineDy y1 y2)

/-- The number of updates of a line, `max(dx, |dy|)` (R142 (a)). -/
def lineMoves (x1 y1 x2 y2 : Int) : Nat := max (x2 - x1).natAbs (y2 - y1).natAbs

variable {x1 y1 x2 y2 : Int} {k : Nat}

theorem lineDx_eq_abs (x1 x2 : Int) : lineDx x1 x2 = |x2 - x1| := Int.natCast_natAbs _

theorem lineDy_eq_neg_abs (y1 y2 : Int) : lineDy y1 y2 = -|y2 - y1| := congrArg Neg.neg (Int.natCast_natAbs _)

theorem lineState_zero : lineState x1 y1 x2 y2 0 = (x1, y1, lineDx x1 x2 + lineDy y1 y2) := rfl

theorem lineState_succ : lineState x1 y1 x2 y2 (k + 1) = lineNext x1 y1 x2 y2 (lineState x1 y1 x2 y2 k) :=
  Function.iterate_succ_apply' ..

/-- A loop that does not meet the end point before its last iteration iterates the updates. -/
theorem lineLoop_eq_iterate (n : Nat) (e : Int × Int × Int)
    (h : ∀ k, k + 1 < n → ¬ (((lineNext x1 y1 x2 y2)^[k] e).1 = x2 ∧ ((lineNext x1 y1 x2 y2)^[k] e).2.1 = y2)) :
    lineLoop x2 y2 (lineDx x1 x2) (lineDy y1 y2) (stepSign x1 x2) (stepSign y1 y2) n e.1 e.2.1 e.2.2 =
      List.iterate (lineNext x1 y1 x2 y2) e n := by
  induction n generalizing e with
  | zero => rfl
  | succ n ih =>
    rw [lineLoop, List.iterate, ← ih (lineNext x1 y1 x2 y2 e) fun k hk => h (k + 1) (by omega)]
    split
    · next hend =>
      cases n with
      | zero => rfl
      | succ n => exact absurd hend (h 0 (by omega))
    · rfl

/-- Moves along an axis, from its first end point. -/
def moved (a b : Int) (i : Nat) : Int := a + stepSign a b * i

theorem moved_zero (a b : Int) : moved a b 0 = a := by simp [moved]

theorem moved_succ (a b : Int) (i : Nat) : moved a b (i + 1) = moved a b i + stepSign a b := by
  simp only [moved]; push_cast; ring

theorem moved_all (a b : Int) : moved a b (b - a).natAbs = b := by
  unfold moved stepSign
  split <;> omega

theorem moved_injective (a b : Int) : Function.Injective (moved a b) := by
  intro i j h
  unfold moved stepSign at h
  split at h <;> omega

theorem moved_between {a b : Int} {i : Nat} (h : i ≤ (b - a).natAbs) : Between a b (moved a b i) := by
  unfold Between moved stepSign
  split <;> omega

/-- The point of every iteration up to `max(dx, |dy|)` is some number of moves along each axis. -/
theorem lineState_moved (hk : k ≤ lineMoves x1 y1 x2 y2) :
    ∃ i j, LineAt (x2 - x1).natAbs (y2 - y1).natAbs k i j (lineState x1 y1 x2 y2 k).2.2 ∧
      (lineState x1 y1 x2 y2 k).1 = moved x1 x2 i ∧ (lineState x1 y1 x2 y2 k).2.1 = moved y1 y2 j := by
  induction k with
  | zero => exact ⟨0, 0, .start _ _, (moved_zero ..).symm, (moved_zero ..).symm⟩
  | succ k ih =>
    obtain ⟨i, j, hat, hx, hy⟩ := ih (Nat.le_of_succ_le hk)
    rw [lineState_succ]
    refine ⟨_, _, hat.step hk, ?_, ?_⟩
    · rw [apply_ite (moved x1 x2), moved_succ, ← hx]
      rfl
    · rw [apply_ite (moved y1 y2), moved_succ, ← hy]
      rfl

/-- Before the last iteration the point is not the second end point. -/
theorem lineState_not_end (hk : k < lineMoves x1 y1 x2 y2) :
    ¬ ((lineState x1 y1 x2 y2 k).1 = x2 ∧ (lineState x1 y1 x2 y2 k).2.1 = y2) := by
  obtain ⟨i, j, hat, hx, hy⟩ := lineState_moved hk.le
  rintro ⟨hx2, hy2⟩
  have hi : moved x1 x2 i = moved x1 x2 (x2 - x1).natAbs := by rw [← hx, hx2, moved_all]
  have hj : moved y1 y2 j = moved y1 y2 (y2 - y1).natAbs := by rw [← hy, hy2, moved_all]
  exact hat.not_end hk ⟨moved_injective x1 x2 hi, moved_injective y1 y2 hj⟩

/-- The loop runs `max(dx, |dy|) + 1` times: the bound given to `lineLoop` cuts no line short (R142 (a); log 13). -/
theorem lineTrace_eq (x1 y1 x2 y2 : Int) :
    lineTrace x1 y1 x2 y2 = (List.range (lineMoves x1 y1 x2 y2 + 1)).map (lineState x1 y1 x2 y2) :=
  (lineLoop_eq_iterate _ _ fun _ hk => lineState_not_end (Nat.lt_of_succ_lt_succ hk)).trans (List.range_map_iterate ..).symm

theorem getElem?_lineTrace {e : Int × Int × Int} :
    (lineTrace x1 y1 x2 y2)[k]? = some e ↔ k ≤ lineMoves x1 y1 x2 y2 ∧ lineState x1 y1 x2 y2 k = e := by
  simp [lineTrace_eq, List.getElem?_eq_some_iff]

theorem mem_lineTrace {e : Int × Int × Int} :
    e ∈ lineTrace x1 y1 x2 y2 ↔ ∃ k ≤ lineMoves x1 y1 x2 y2, lineState x1 y1 x2 y2 k = e := by
  simp [lineTrace_eq]

theorem head?_lineTrace (x1 y1 x2 y2 : Int) :
    (lineTrace x1 y1 x2 y2).head? = some (x1, y1, lineDx x1 x2 + lineDy y1 y2) := by
  simp [lineTrace_eq, List.range_succ_eq_map, lineState_zero]

/-- The last iteration stands at the second end point. -/
theorem getLast?_lineTrace (x1 y1 x2 y2 : Int) : ∃ err, (lineTrace x1 y1 x2 y2).getLast? = some (x2, y2, err) := by
  have hlast : (lineTrace x1 y1 x2 y2).getLast? = some (lineState x1 y1 x2 y2 (lineMoves x1 y1 x2 y2)) := by
    simp [lineTrace_eq, List.range_succ]
  obtain ⟨i, j, hat, hx, hy⟩ := lineState_moved (Nat.le_refl (lineMoves x1 y1 x2 y2))
  obtain ⟨rfl, rfl⟩ := hat.at_end
  rw [moved_all] at hx hy
  exact ⟨_, hlast.trans (congrArg some (Prod.ext hx (Prod.ext hy rfl)))⟩

/-- Settles O13: the trace lists the iterates of the updates, and meets the end point in the last of them and in no other. -/
theorem lineRunsTheLoop : Obligations.LineRunsTheLoop := by
  intro x1 y1 x2 y2
  simp only [← lineDy_eq_neg_abs]
  simp only [← lineDx_eq_abs]
  refine ⟨head?_lineTrace .., fun k x y err e hk hk' => ?_, getLast?_lineTrace .., rfl⟩
  obtain ⟨-, hstate⟩ := getElem?_lineTrace.1 hk
  obtain ⟨hlt, rfl⟩ := getElem?_lineTrace.1 hk'
  have running := lineState_not_end (Nat.lt_of_succ_le hlt)
  rw [lineState_succ]
  rw [hstate] at running ⊢
  exact ⟨running, rfl⟩

/-- Twice the error lies between `3 * dy` and `3 * dx` (R142 (f)). -/
theorem lineTrace_err_bounds {e : Int × Int × Int} (he : e ∈ lineTrace x1 y1 x2 y2) :
    3 * -|y2 - y1| ≤ 2 * e.2.2 ∧ 2 * e.2.2 ≤ 3 * |x2 - x1| := by
  obtain ⟨k, hk, rfl⟩ := mem_lineTrace.1 he
  obtain ⟨i, j, hat, -, -⟩ := lineState_moved hk
  rw [← Int.natCast_natAbs, ← Int.natCast_natAbs]
  exact ⟨hat.errLower, hat.errUpper⟩

/-- Two s16 operands differ by at most 65535. -/
theorem abs_sub_toInt_le (a b : S16) : |b.toInt - a.toInt| ≤ 65535 := by
  have ha := a.le_toInt
  have ha' := a.toInt_lt
  have hb := b.le_toInt
  have hb' := b.toInt_lt
  rw [abs_le]
  omega

/-- Settles O17: the bounds are part of what every iteration keeps. -/
theorem lineErrorStaysBounded : Obligations.LineErrorStaysBounded := by
  refine ⟨fun x1 y1 x2 y2 e => lineTrace_err_bounds, fun x1 y1 x2 y2 e he => ?_⟩
  obtain ⟨hlower, hupper⟩ := lineTrace_err_bounds he
  have hx := abs_sub_toInt_le x1 x2
  have hy := abs_sub_toInt_le y1 y2
  rw [abs_le]
  omega

/-! ### The points -/

/-- The point plotted in iteration `k`, counted from 0. -/
def linePoint (x1 y1 x2 y2 : Int) (k : Nat) : Point := ((lineState x1 y1 x2 y2 k).1, (lineState x1 y1 x2 y2 k).2.1)

theorem linePoints_eq (x1 y1 x2 y2 : Int) :
    linePoints x1 y1 x2 y2 = (List.range (lineMoves x1 y1 x2 y2 + 1)).map (linePoint x1 y1 x2 y2) := by
  rw [linePoints, lineTrace_eq, List.map_map]
  rfl

theorem linePoints_eq_map {f : Nat → Point} (h : ∀ k ≤ lineMoves x1 y1 x2 y2, linePoint x1 y1 x2 y2 k = f k) :
    linePoints x1 y1 x2 y2 = (List.range (lineMoves x1 y1 x2 y2 + 1)).map f :=
  (linePoints_eq ..).trans (List.map_congr_left fun k hk => h k (Nat.le_of_lt_succ (List.mem_range.1 hk)))

theorem getElem?_linePoints {p : Point} :
    (linePoints x1 y1 x2 y2)[k]? = some p ↔ k ≤ lineMoves x1 y1 x2 y2 ∧ linePoint x1 y1 x2 y2 k = p := by
  simp [linePoints_eq, List.getElem?_eq_some_iff]

theorem mem_linePoints {p : Point} :
    p ∈ linePoints x1 y1 x2 y2 ↔ ∃ k ≤ lineMoves x1 y1 x2 y2, linePoint x1 y1 x2 y2 k = p := by
  simp [linePoints_eq]

theorem length_linePoints (x1 y1 x2 y2 : Int) : (linePoints x1 y1 x2 y2).length = lineMoves x1 y1 x2 y2 + 1 := by
  simp [linePoints_eq]

/-- `k` iterations move `k` times along the major axis. -/
theorem linePoint_fst_of_xMajor (hk : k ≤ lineMoves x1 y1 x2 y2) (hle : (y2 - y1).natAbs ≤ (x2 - x1).natAbs) :
    (linePoint x1 y1 x2 y2 k).1 = moved x1 x2 k := by
  obtain ⟨i, j, hat, hx, -⟩ := lineState_moved hk
  obtain rfl := (hat.xMajor hle).1
  exact hx

theorem linePoint_snd_of_yMajor (hk : k ≤ lineMoves x1 y1 x2 y2) (hle : (x2 - x1).natAbs ≤ (y2 - y1).natAbs) :
    (linePoint x1 y1 x2 y2 k).2 = moved y1 y2 k := by
  obtain ⟨i, j, hat, -, hy⟩ := lineState_moved hk
  obtain rfl := (hat.yMajor hle).1
  exact hy

/-- Different iterations plot different points: they differ on the major axis. -/
theorem linePoint_injOn {k' : Nat} (hk : k ≤ lineMoves x1 y1 x2 y2) (hk' : k' ≤ lineMoves x1 y1 x2 y2)
    (h : linePoint x1 y1 x2 y2 k = linePoint x1 y1 x2 y2 k') : k = k' := by
  obtain hle | hle := Nat.le_total (y2 - y1).natAbs (x2 - x1).natAbs
  · apply moved_injective x1 x2
    rw [← linePoint_fst_of_xMajor hk hle, ← linePoint_fst_of_xMajor hk' hle, h]
  · apply moved_injective y1 y2
    rw [← linePoint_snd_of_yMajor hk hle, ← linePoint_snd_of_yMajor hk' hle, h]

theorem nodup_linePoints (x1 y1 x2 y2 : Int) : (linePoints x1 y1 x2 y2).Nodup := by
  rw [linePoints_eq]
  refine List.nodup_range.map_on fun k hk k' hk' => ?_
  exact linePoint_injOn (Nat.le_of_lt_succ (List.mem_range.1 hk)) (Nat.le_of_lt_succ (List.mem_range.1 hk'))

/-- Settles O14: the points are those of the iterations 0 to `max(dx, |dy|)`. -/
theorem lineVisitsMaxPlusOnePoints : Obligations.LineVisitsMaxPlusOnePoints := by
  intro x1 y1 x2 y2
  obtain ⟨err, hlast⟩ := getLast?_lineTrace x1 y1 x2 y2
  refine ⟨length_linePoints .., nodup_linePoints .., ?_, ?_⟩
  · rw [linePoints, List.head?_map, head?_lineTrace]
    rfl
  · rw [linePoints, List.getLast?_map, hlast]
    rfl

/-- Every point lies in the rectangle the end points span (R142 (d)). -/
theorem linePoint_between (hk : k ≤ lineMoves x1 y1 x2 y2) :
    Between x1 x2 (linePoint x1 y1 x2 y2 k).1 ∧ Between y1 y2 (linePoint x1 y1 x2 y2 k).2 := by
  obtain ⟨i, j, hat, hx, hy⟩ := lineState_moved hk
  rw [linePoint, hx, hy]
  exact ⟨moved_between hat.xLe, moved_between hat.yLe⟩

theorem linePoint_succ (x1 y1 x2 y2 : Int) (k : Nat) :
    linePoint x1 y1 x2 y2 (k + 1) =
      (if 2 * (lineState x1 y1 x2 y2 k).2.2 ≥ lineDy y1 y2 then (linePoint x1 y1 x2 y2 k).1 + stepSign x1 x2
        else (linePoint x1 y1 x2 y2 k).1,
      if 2 * (lineState x1 y1 x2 y2 k).2.2 ≤ lineDx x1 x2 then (linePoint x1 y1 x2 y2 k).2 + stepSign y1 y2
        else (linePoint x1 y1 x2 y2 k).2) := by
  rw [linePoint, lineState_succ]
  rfl

/-- Settles O15: each test of R141 moves its axis by its sign or not at all, and that of the major axis always succeeds. -/
theorem lineStepsAndStaysInside : Obligations.LineStepsAndStaysInside := by
  intro x1 y1 x2 y2
  refine ⟨fun k p q hp hq => ?_, fun p hp => ?_⟩
  · obtain ⟨hk, rfl⟩ := getElem?_linePoints.1 hp
    obtain ⟨-, rfl⟩ := getElem?_linePoints.1 hq
    obtain ⟨i, j, hat, -, -⟩ := lineState_moved hk
    rw [linePoint_succ, ← Int.natCast_natAbs, ← Int.natCast_natAbs, Int.ofNat_le, Int.ofNat_le]
    exact ⟨(ite_eq_or_eq ..).symm, (ite_eq_or_eq ..).symm,
      fun hle => if_pos (hat.xMajor hle).2, fun hle => if_pos (hat.yMajor hle).2⟩
  · obtain ⟨k, hk, rfl⟩ := mem_linePoints.1 hp
    exact linePoint_between hk

theorem eq_of_between_self {c v : Int} (h : Between c c v) : v = c := by
  unfold Between at h
  omega

/-- Settles O16: along an axis every iteration moves, and the other axis stays between its equal end points. -/
theorem axisLinesAreSegments : Obligations.AxisLinesAreSegments := by
  intro a b c
  have horizontal : lineMoves a c b c = (b - a).natAbs := by simp [lineMoves]
  have vertical : lineMoves c a c b = (b - a).natAbs := by simp [lineMoves]
  constructor
  · rw [← horizontal]
    exact linePoints_eq_map fun k hk =>
      Prod.ext (linePoint_fst_of_xMajor hk (by simp)) (eq_of_between_self (linePoint_between hk).2)
  · rw [← vertical]
    exact linePoints_eq_map fun k hk =>
      Prod.ext (eq_of_between_self (linePoint_between hk).1) (linePoint_snd_of_yMajor hk (by simp))

/-- Settles O18: the loop evaluated on the four pairs of end points. -/
theorem workedLineTrace : Obligations.WorkedLineTrace := by
  unfold Obligations.WorkedLineTrace
  decide

/-! ### The operation -/

/-- Settles O19: a gated list of plots, which draws the set of its points. -/
theorem drawLineOperation : Obligations.DrawLineOperation := fun x1 y1 x2 y2 set s =>
  gated_operation (f := plotAll set (linePoints x1.toInt y1.toInt x2.toInt y2.toInt)) rfl (plotAll_draws set _ s)

end Sys2Proof.Machine
end

section
/-! PROOF. 42_box.md: the points of an outline (R162) and of a filled box (R163), and DRAWBOX (R160, R161). -/

namespace Sys2Proof.Machine

/-! ### Lines along an axis, as sets of points -/

/-- The moves from one end reach exactly what lies between the ends. -/
theorem exists_moved_iff {a b v : Int} : (∃ i < (b - a).natAbs + 1, moved a b i = v) ↔ Between a b v := by
  constructor
  · rintro ⟨i, hi, rfl⟩
    exact moved_between (Nat.le_of_lt_succ hi)
  · intro hv
    refine ⟨(v - a).natAbs, by omega, ?_⟩
    unfold moved stepSign
    split <;> omega

theorem mem_linePoints_horizontal {a b c px py : Int} : (px, py) ∈ linePoints a c b c ↔ py = c ∧ Between a b px := by
  have segment : linePoints a c b c = (List.range ((b - a).natAbs + 1)).map fun k => (moved a b k, c) :=
    (axisLinesAreSegments a b c).1
  rw [segment, ← exists_moved_iff]
  simp only [List.mem_map, List.mem_range, Prod.mk.injEq, eq_comm (a := c), and_comm (b := py = c),
    and_left_comm (b := py = c), exists_and_left]

theorem mem_linePoints_vertical {a b c px py : Int} : (px, py) ∈ linePoints c a c b ↔ px = c ∧ Between a b py := by
  have segment : linePoints c a c b = (List.range ((b - a).natAbs + 1)).map fun k => (c, moved a b k) :=
    (axisLinesAreSegments a b c).2
  rw [segment, ← exists_moved_iff]
  simp only [List.mem_map, List.mem_range, Prod.mk.injEq, eq_comm (a := c), and_left_comm (b := px = c), exists_and_left]

/-! ### The points of a box -/

/-- Outline mode draws the four sides (R162). -/
theorem mem_outlinePoints {x y x2 y2 px py : Int} : (px, py) ∈ outlinePoints x y x2 y2 ↔ OnPerimeter x y x2 y2 px py := by
  simp only [outlinePoints, List.mem_append, mem_linePoints_horizontal, mem_linePoints_vertical, OnPerimeter,
    or_and_right, or_assoc]

theorem mem_rowsDown {h i : Int} : i ∈ rowsDown h ↔ 0 ≤ i ∧ i ≤ h := by
  simp only [rowsDown, List.mem_map, List.mem_reverse, List.mem_range]
  constructor
  · rintro ⟨k, hk, rfl⟩
    omega
  · rintro ⟨h0, hh⟩
    exact ⟨i.toNat, by omega, Int.toNat_of_nonneg h0⟩

/-- Filled mode draws the rows at the offsets 0 to `h` (R163). -/
theorem mem_filledPoints {x y x2 h px py : Int} :
    (px, py) ∈ filledPoints x y x2 h ↔ Between x x2 px ∧ y ≤ py ∧ py ≤ y + h := by
  simp only [filledPoints, List.mem_flatMap, mem_rowsDown, mem_linePoints_horizontal]
  constructor
  · rintro ⟨i, ⟨h0, hh⟩, rfl, hx⟩
    exact ⟨hx, by omega, by omega⟩
  · rintro ⟨hx, hy, hyh⟩
    exact ⟨py - y, ⟨by omega, by omega⟩, by omega, hx⟩

/-! ### The operation -/

/-- Settles O20: a gated list of plots, whose points are the four sides. -/
theorem drawBoxOutline : Obligations.DrawBoxOutline := fun x y w h set s =>
  gated_operation (f := plotAll set (outlinePoints x.toInt y.toInt (x.toInt + w.toInt) (y.toInt + h.toInt))) rfl
    (draws_congr (fun _ _ => mem_outlinePoints) (plotAll_draws set _ s))

/-- Settles O21: a gated list of plots with `set = 1`, whose points are the rows. -/
theorem drawBoxFilled : Obligations.DrawBoxFilled := fun x y w h _ s =>
  gated_operation (f := plotAll true (filledPoints x.toInt y.toInt (x.toInt + w.toInt) h.toInt)) rfl
    (draws_congr (fun _ _ => mem_filledPoints) (plotAll_draws true _ s))

end Sys2Proof.Machine
end

section
/-! PROOF. 43_glyph_text.md: the glyph cell (R180, R182), DRAWCHAR (R181), DRAWTEXT (R185) and their laws (R186). -/

namespace Sys2Proof.Machine

/-! ### The glyph cell -/

/-- The points of a cell are the 1 bits of the column patterns (R182). -/
theorem mem_glyphPoints {g : Nat → BitVec 7} {x y px py : Int} :
    (px, py) ∈ glyphPoints g x y ↔
      ∃ c r : Nat, c < 5 ∧ r < 7 ∧ px = x + c ∧ py = y + r ∧ (g c).getLsbD (6 - r) = true := by
  simp only [glyphPoints, List.mem_flatMap, List.mem_filterMap, List.mem_range, Option.ite_none_right_eq_some,
    Option.some.injEq, Prod.mk.injEq]
  constructor
  · rintro ⟨c, hc, r, hr, hbit, rfl, rfl⟩
    exact ⟨c, r, hc, hr, rfl, rfl, hbit⟩
  · rintro ⟨c, r, hc, hr, rfl, rfl, hbit⟩
    exact ⟨c, hc, r, hr, hbit, rfl, rfl⟩

/-- The lookup `glyph` is R180's: the points of a character's cell are the 1 bits of its glyph. -/
theorem mem_glyphPoints_glyph {ch : Byte} {x y px py : Int} : (px, py) ∈ glyphPoints (glyph ch) x y ↔ InGlyph ch x y px py :=
  mem_glyphPoints

/-- `p` comes before `q` in a walk by columns from the left, and in a column by rows from the top. -/
abbrev ColumnMajor (p q : Point) : Prop := p.1 < q.1 ∨ (p.1 = q.1 ∧ p.2 < q.2)

/-- The two loops of R182 count up, the outer one through the columns. -/
theorem glyphPoints_columnMajor (g : Nat → BitVec 7) (x y : Int) : (glyphPoints g x y).Pairwise ColumnMajor := by
  refine List.pairwise_flatMap.2 ⟨fun c _ => ?_, ?_⟩
  · refine List.Pairwise.filterMap _ (fun r r' hlt p hp q hq => ?_) List.pairwise_lt_range
    obtain ⟨-, ⟨⟩⟩ := Option.ite_none_right_eq_some.1 hp
    obtain ⟨-, ⟨⟩⟩ := Option.ite_none_right_eq_some.1 hq
    exact .inr ⟨rfl, by dsimp only; omega⟩
  · refine List.pairwise_lt_range.imp fun {c c'} hlt p hp q hq => ?_
    obtain ⟨r, -, hp⟩ := List.mem_filterMap.1 hp
    obtain ⟨r', -, hq⟩ := List.mem_filterMap.1 hq
    obtain ⟨-, ⟨⟩⟩ := Option.ite_none_right_eq_some.1 hp
    obtain ⟨-, ⟨⟩⟩ := Option.ite_none_right_eq_some.1 hq
    exact .inl (by dsimp only; omega)

theorem glyphCell_draws (ch : Byte) (x y : Int) (set : Bool) (s : State) :
    Draws (InGlyph ch x y) set s (plotAll set (glyphPoints (glyph ch) x y) s) :=
  draws_congr (fun _ _ => mem_glyphPoints_glyph) (plotAll_draws set _ s)

/-- Settles O56: the points of the cell, their order, and the picture they draw. -/
theorem glyphCellPrimitive : Obligations.GlyphCellPrimitive := fun ch x y set s =>
  ⟨fun _ _ => mem_glyphPoints_glyph, glyphPoints_columnMajor (glyph ch) x y, glyphCell_draws ch x y set s⟩

/-! ### The points of a text -/

/-- Character 0 stands in the cell at `x`, the others are a text that begins one advance further right. -/
theorem inText_cons {ch : Byte} {rest : List Byte} {x y px py : Int} :
    InText (ch :: rest) x y px py ↔ InGlyph ch x y px py ∨ InText rest (x + 6) y px py := by
  have shift (k : Nat) : x + 6 * ((k : Int) + 1) = x + 6 + 6 * k := by omega
  unfold InText
  rw [← Nat.or_exists_add_one]
  simp [shift]

/-- Character `k` stands in the cell at `x + 6 * k` (R185). -/
theorem mem_textPoints {text : List Byte} {x y px py : Int} : (px, py) ∈ textPoints x y text ↔ InText text x y px py := by
  induction text generalizing x with
  | nil => simp [textPoints, InText]
  | cons ch rest ih => rw [textPoints, List.mem_append, mem_glyphPoints_glyph, ih, inText_cons, Config.textAdvance]

theorem textPoints_append (x y : Int) (a b : List Byte) :
    textPoints x y (a ++ b) = textPoints x y a ++ textPoints (x + 6 * a.length) y b := by
  induction a generalizing x with
  | nil => simp [textPoints]
  | cons ch rest ih =>
    have shift : x + Config.textAdvance + 6 * (rest.length : Int) = x + 6 * ((rest.length + 1 : Nat) : Int) := by
      rw [Config.textAdvance]; omega
    rw [List.cons_append, textPoints, textPoints, ih, List.append_assoc, List.length_cons, shift]

theorem textPoints_singleton (x y : Int) (ch : Byte) : textPoints x y [ch] = glyphPoints (glyph ch) x y := List.append_nil _

/-! ### The operations -/

/-- DRAWCHAR is a gated list of plots (R181). -/
theorem exec_drawChar (x y : S16) (ch : Byte) (set : Bool) (s : State) :
    exec (.drawChar x y ch set) s = whenReady (plotAll set (glyphPoints (glyph ch) x.toInt y.toInt)) s := rfl

/-- DRAWTEXT is a gated list of plots (R185). -/
theorem exec_drawText (x y : S16) (set : Bool) (text : List Byte) (s : State) :
    exec (.drawText x y set text) s = whenReady (plotAll set (textPoints x.toInt y.toInt text)) s := rfl

/-- Settles O22: a gated list of plots, whose points are the 1 bits of the glyph. -/
theorem drawCharOperation : Obligations.DrawCharOperation := fun x y ch set s =>
  gated_operation (exec_drawChar x y ch set s) (glyphCell_draws ch _ _ set s)

/-- Settles O23: a gated list of plots, whose points are the 1 bits of the characters' glyphs. -/
theorem drawTextOperation : Obligations.DrawTextOperation := fun x y set text s =>
  gated_operation (exec_drawText x y set text s) (draws_congr (fun _ _ => mem_textPoints) (plotAll_draws set _ s))

/-! ### The laws of R186 -/

/-- A list of plots keeps STATE, so the operation after it is executed too. -/
theorem plotAll_ready {set : Bool} {ps : List Point} {s : State} (hr : s.ctrl = .ready) : (plotAll set ps s).ctrl = .ready := by
  rw [plotAll_onlyFb set ps s]
  exact hr

/-- Settles O24: the points of a text are those of its pieces in order, and plotting in order is one plot list after the other. -/
theorem textIsDrawnPieceByPiece : Obligations.TextIsDrawnPieceByPiece := by
  intro x y x' set a b ch s hr
  simp only [exec_drawText, exec_drawChar]
  refine ⟨fun hx' => ?_, by rw [textPoints_singleton]⟩
  refine ⟨_, _, whenReady_of_ready _ hr, whenReady_of_ready _ (plotAll_ready hr), ?_⟩
  rw [whenReady_of_ready _ hr, textPoints_append, plotAll_append, hx']

/-- Of two pictures of the same points the later one counts. -/
theorem draws_redraw {P : Int → Int → Prop} {set set' : Bool} {s m t : State} (h : Draws P set s m) (k : Draws P set' m t) :
    Draws P set' s t := by
  obtain ⟨hfb, hpix, hbyte⟩ := h
  obtain ⟨kfb, kpix, kbyte⟩ := k
  have hcfg : m.cfg = s.cfg := by rw [hfb]
  rw [hcfg] at kpix kbyte
  refine ⟨onlyFb_trans hfb kfb, fun x y hb => ⟨(kpix x y hb).1, fun hn => ?_⟩, fun a ha => ?_⟩
  · exact ((kpix x y hb).2 hn).trans ((hpix x y hb).2 hn)
  · exact (kbyte a ha).trans (hbyte a ha)

/-- Settles O25: the second picture has the points of the first. -/
theorem charIsErasedByRedrawing : Obligations.CharIsErasedByRedrawing := by
  intro x y ch s hr
  simp only [exec_drawChar]
  exact ⟨_, _, whenReady_of_ready _ hr, whenReady_of_ready _ (plotAll_ready hr),
    draws_redraw (glyphCell_draws ch _ _ true s) (glyphCell_draws ch _ _ false _)⟩

end Sys2Proof.Machine
end

section
/-! PROOF. 44_controller.md: the transport's answers never matter (R216 (f), 60_exceptions.md R251), the five operations of the controller
(R205, R210 to R213), every accepted instruction completes (R214, R216 (c)), the two sides are separate (R216 (e)), the transitions of
STATE (R215), and a sequence done at once or one command a step. -/

namespace Sys2Proof.Machine

/-! ### The transport's answers never matter (R216 (f)) -/

/-- The two states differ only in the answers to come, none of which is missing. -/
structure Alike (s t : State) : Prop where
  same : t = { s with transport := t.transport }
  left : Answers s
  right : Answers t

/-- Whatever the answers to come are, the effect is the same but for the answers still to come. -/
def IgnoresAnswers (f : State → State) : Prop := ∀ s t, Alike s t → Alike (f s) (f t)

/-- A change of the state that neither reads nor takes an answer. -/
theorem ignoresAnswers_of_commutes {f : State → State} (hk : ∀ s, (f s).transport = s.transport)
    (hf : ∀ s answers, f { s with transport := answers } = { f s with transport := answers }) : IgnoresAnswers f := by
  intro s t h
  refine ⟨?_, by rw [Answers, hk]; exact h.left, by rw [Answers, hk]; exact h.right⟩
  rw [hk, h.same, hf]

theorem foldl_ignoresAnswers {α : Type} {f : State → α → State} (hf : ∀ a, IgnoresAnswers fun s => f s a) (l : List α) :
    IgnoresAnswers fun s => l.foldl f s := by
  induction l with
  | nil => exact fun _ _ h => h
  | cons a l ih => exact fun s t h => ih _ _ (hf a s t h)

/-- An effect may be chosen by `cfg`, which alike states have in common. -/
theorem byCfg_ignoresAnswers {f : Cfg → State → State} (hf : ∀ cfg, IgnoresAnswers (f cfg)) :
    IgnoresAnswers fun s => f s.cfg s := by
  intro s t h
  have hcfg : t.cfg = s.cfg := by rw [h.same]
  simp only [hcfg]
  exact hf s.cfg s t h

theorem fbWrite_ignoresAnswers (i : Nat) (v : Byte) : IgnoresAnswers (fbWrite i v) :=
  ignoresAnswers_of_commutes (fun _ => rfl) fun _ _ => rfl

theorem plot_ignoresAnswers (set : Bool) (x y : Int) : IgnoresAnswers (plot set x y) := by
  refine ignoresAnswers_of_commutes (fun s => by rw [plot_onlyFb set x y s]) fun s answers => ?_
  unfold plot
  by_cases hb : inBounds s.cfg x y = true
  · rw [if_pos hb, if_pos hb]; rfl
  · rw [if_neg hb, if_neg hb]

theorem plotAll_ignoresAnswers (set : Bool) (ps : List Point) : IgnoresAnswers (plotAll set ps) :=
  foldl_ignoresAnswers (f := fun s (p : Point) => plot set p.1 p.2 s) (fun p => plot_ignoresAnswers set p.1 p.2) ps

theorem clearAll_ignoresAnswers : IgnoresAnswers clearAll :=
  byCfg_ignoresAnswers (f := fun cfg s => (List.range (fbLen cfg)).foldl (fun s i => fbWrite i 0x00 s) s) fun _ =>
    foldl_ignoresAnswers (fun i => fbWrite_ignoresAnswers i 0x00) _

/-- The key fact: `emit` takes one answer and looks only at whether it is missing. -/
theorem emit_ignoresAnswers (b : List Byte) : IgnoresAnswers (emit b) := by
  intro s t h
  have hblocked : t.blocked = s.blocked := by rw [h.same]
  cases hb : s.blocked with
  | true => rw [emit_blocked hb, emit_blocked (hblocked.trans hb)]; exact h
  | false =>
    rw [emit_answered hb h.left, emit_answered (hblocked.trans hb) h.right]
    refine ⟨?_, answers_drop h.left rfl, answers_drop h.right rfl⟩
    rw [h.same]
    rfl

/-- The frame handed over is read from the framebuffer alone. -/
theorem dataTransfer_ignoresAnswers : IgnoresAnswers dataTransfer := by
  intro s t h
  have hblocked : t.blocked = s.blocked := by rw [h.same]
  have hframe : fbBytes (fbWrite 0 Config.ctrlData t) = fbBytes (fbWrite 0 Config.ctrlData s) := by rw [h.same]; rfl
  unfold dataTransfer
  rw [hblocked, hframe]
  cases s.blocked with
  | true => exact h
  | false => exact emit_ignoresAnswers _ _ _ (fbWrite_ignoresAnswers _ _ _ _ h)

theorem performWord_ignoresAnswers (w : CmdWord) : IgnoresAnswers (performWord w) := by
  intro s t h
  cases w with
  | cmd0 op => exact emit_ignoresAnswers _ _ _ h
  | cmd1 op a1 => exact emit_ignoresAnswers _ _ _ (emit_ignoresAnswers _ _ _ h)
  | cmd2 op a1 a2 => exact emit_ignoresAnswers _ _ _ (emit_ignoresAnswers _ _ _ (emit_ignoresAnswers _ _ _ h))
  | data => exact dataTransfer_ignoresAnswers _ _ h

theorem load_ignoresAnswers (ws : List CmdWord) : IgnoresAnswers fun s => { s with sequencer := ws } :=
  ignoresAnswers_of_commutes (fun _ => rfl) fun _ _ => rfl

theorem advance_ignoresAnswers (rest : List CmdWord) : IgnoresAnswers (advance rest) := by
  refine ignoresAnswers_of_commutes (fun s => ?_) fun s answers => ?_ <;> unfold advance <;> by_cases hb : s.blocked = true
  · rw [if_pos hb]
  · rw [if_neg hb]
  · rw [if_pos hb, if_pos hb]
  · rw [if_neg hb, if_neg hb]

theorem runSequence_ignoresAnswers (ws : List CmdWord) : IgnoresAnswers (runSequence ws) := by
  induction ws with
  | nil => exact fun _ _ h => h
  | cons w rest ih =>
    intro s t h
    have hblocked : t.blocked = s.blocked := by rw [h.same]
    have hload := load_ignoresAnswers (w :: rest) s t h
    rw [runSequence, runSequence]
    by_cases hb : s.blocked = true
    · rw [if_pos hb, if_pos (hblocked.trans hb)]
      exact h
    · rw [if_neg hb, if_neg (hblocked ▸ hb)]
      exact ih _ _ (advance_ignoresAnswers rest _ _ (performWord_ignoresAnswers w _ _ hload))

theorem beginConstruct_ignoresAnswers (w h : Byte) (a : BitVec 7) (e : Bool) : IgnoresAnswers (beginConstruct w h a e) :=
  ignoresAnswers_of_commutes (fun _ => rfl) fun _ _ => rfl

theorem destroy_ignoresAnswers : IgnoresAnswers fun s => { forget s with ctrl := .uninitialized } :=
  ignoresAnswers_of_commutes (fun _ => rfl) fun _ _ => rfl

theorem hardwareReset_ignoresAnswers : IgnoresAnswers hardwareReset :=
  ignoresAnswers_of_commutes (fun _ => rfl) fun _ _ => rfl

theorem host_ignoresAnswers (rest : List HostEvent) : IgnoresAnswers fun s => { s with host := rest } :=
  ignoresAnswers_of_commutes (fun _ => rfl) fun _ _ => rfl

/-- The two outcomes are the same but for the answers to come. -/
inductive AlikeOutcome : Host.Outcome State Fault Refusal → Host.Outcome State Fault Refusal → Prop where
  | next {s t : State} (h : Alike s t) : AlikeOutcome (.next s) (.next t)
  | fault (r : Fault) : AlikeOutcome (.fault r) (.fault r)
  | refused (r : Refusal) : AlikeOutcome (.refused r) (.refused r)

theorem refuse_alike {s t : State} (c : RefusalCause) (h : Alike s t) : AlikeOutcome (refuse c s) (refuse c t) :=
  .next (ignoresAnswers_of_commutes (f := fun s => { s with refusals := s.refusals ++ [c] }) (fun _ => rfl) (fun _ _ => rfl) s t h)

theorem whenReady_alike {f : State → State} {s t : State} (hf : IgnoresAnswers f) (h : Alike s t) :
    AlikeOutcome (whenReady f s) (whenReady f t) := by
  have hctrl : t.ctrl = s.ctrl := by rw [h.same]
  unfold whenReady
  rw [hctrl]
  split
  · exact .next (hf s t h)
  · exact refuse_alike _ h

theorem execConstruct_alike {s t : State} (w hgt : Byte) (a : BitVec 7) (e : Bool) (h : Alike s t) :
    AlikeOutcome (execConstruct w hgt a e s) (execConstruct w hgt a e t) := by
  have hctrl : t.ctrl = s.ctrl := by rw [h.same]
  unfold execConstruct
  rw [hctrl]
  split
  · exact refuse_alike _ h
  · split
    · exact .next (runSequence_ignoresAnswers _ _ _ (beginConstruct_ignoresAnswers w hgt a e s t h))
    · exact refuse_alike _ h

theorem exec_alike {s t : State} (i : Instr) (h : Alike s t) : AlikeOutcome (exec i s) (exec i t) := by
  cases hd : isDrawing i with
  | true =>
    obtain ⟨set, ps, he⟩ | he := exec_drawing hd <;> rw [he, he]
    · exact whenReady_alike (plotAll_ignoresAnswers set ps) h
    · exact whenReady_alike clearAll_ignoresAnswers h
  | false =>
    obtain ⟨w, hgt, a, e, rfl⟩ | rfl | ⟨-, ws, -, he⟩ | ⟨-, w, -, he⟩ := exec_device hd
    · exact execConstruct_alike w hgt a e h
    · exact whenReady_alike destroy_ignoresAnswers h
    · rw [he, he]
      exact whenReady_alike (byCfg_ignoresAnswers fun cfg => runSequence_ignoresAnswers (ws cfg)) h
    · rw [he, he]
      exact .next (performWord_ignoresAnswers w s t h)

theorem afterCommand_alike {o p : Host.Outcome State Fault Refusal} (rest : List CmdWord) (h : AlikeOutcome o p) :
    AlikeOutcome (afterCommand rest o) (afterCommand rest p) := by
  cases h with
  | next h => exact .next (advance_ignoresAnswers rest _ _ h)
  | fault r => exact .fault r
  | refused r => exact .refused r

/-- The two fetches find the same, in states that differ only in the answers to come. -/
inductive AlikeFetched : Fetched → Fetched → Prop where
  | stuck : AlikeFetched .stuck .stuck
  | idle : AlikeFetched .idle .idle
  | reset {s t : State} (h : Alike s t) : AlikeFetched (.reset s) (.reset t)
  | operation {s t : State} (i : Instr) (h : Alike s t) : AlikeFetched (.operation i s) (.operation i t)
  | rejected {s t : State} (c : RefusalCause) (h : Alike s t) : AlikeFetched (.rejected c s) (.rejected c t)
  | command (i : Instr) (rest : List CmdWord) : AlikeFetched (.command i rest) (.command i rest)
  | unknown : AlikeFetched .unknown .unknown

/-- What is fetched is read from the port, the sequencer and the host alone. -/
theorem fetch_alike {s t : State} (h : Alike s t) : AlikeFetched (fetch s) (fetch t) := by
  have hhost := fun rest => host_ignoresAnswers rest s t h
  rw [h.same] at hhost ⊢
  unfold fetch
  dsimp only
  by_cases hb : s.blocked = true
  · rw [if_pos hb, if_pos hb]
    split
    · exact .reset (hhost _)
    · exact .stuck
  · rw [if_neg hb, if_neg hb]
    split
    · split
      · exact .command _ _
      · exact .unknown
    · split
      · exact .idle
      · exact .reset (hhost _)
      · split
        · exact .operation _ (hhost _)
        · exact .rejected _ (hhost _)

theorem step_alike {s t : State} (h : Alike s t) : AlikeOutcome (step s) (step t) := by
  have hf := fetch_alike h
  unfold step
  generalize fetch s = f, fetch t = g at hf
  cases hf with
  | stuck => exact .fault _
  | idle => exact .next h
  | reset h' => exact .next (hardwareReset_ignoresAnswers _ _ h')
  | operation i h' => exact exec_alike i h'
  | rejected c h' => exact refuse_alike c h'
  | command i rest => exact afterCommand_alike rest (exec_alike i h)
  | unknown => exact .refused _

theorem run_succ_next_iff {n : Nat} {s u : State} :
    core.run (n + 1) s = .next u ↔ ∃ s', step s = .next s' ∧ core.run n s' = .next u := by
  have hstep : core.step s = step s := rfl
  cases hs : step s <;> simp [Host.Core.run, hstep, hs]

theorem run_alike (n : Nat) {s t u : State} (h : Alike s t) (hs : core.run n s = .next u) :
    ∃ v, core.run n t = .next v ∧ Alike u v := by
  induction n generalizing s t with
  | zero => cases hs; exact ⟨t, rfl, h⟩
  | succ n ih =>
    obtain ⟨s', hs', hu⟩ := run_succ_next_iff.1 hs
    have hstep := step_alike h
    rw [hs'] at hstep
    generalize ht' : step t = o at hstep
    cases hstep with
    | next h' =>
      obtain ⟨v, hv, huv⟩ := ih h' hu
      exact ⟨v, run_succ_next_iff.2 ⟨_, ht', hv⟩, huv⟩

/-- Settles O50: by induction on the steps, each of which keeps two states alike. -/
theorem transportResultsNeverMatter : Obligations.TransportResultsNeverMatter := by
  intro n s t answers hs ha ht
  obtain ⟨v, hv, huv⟩ := run_alike n (t := { s with transport := answers }) ⟨rfl, hs, ha⟩ ht
  exact ⟨v.transport, huv.same ▸ hv⟩

/-! ### A sequence done at once or one command a step -/

/-- When the transport answers, the controller is done with a command word after the number of transactions it has. -/
theorem performWord_completes {s : State} (hb : s.blocked = false) (ha : Answers s) (w : CmdWord) :
    (performWord w s).out.length = s.out.length + (wordBytes [] w).length ∧ (performWord w s).blocked = false ∧
      Answers (performWord w s) := by
  by_cases hw : w = .data
  · subst hw
    rw [performWord, dataTransfer_answered hb ha]
    exact ⟨by simp [sent, wordBytes], hb, answers_drop ha rfl⟩
  · rw [performWord_answered hb ha hw []]
    exact ⟨by simp [sent], hb, answers_drop ha rfl⟩

/-- After an answered command the sequencer holds the commands that remain, and the transport still answers. -/
theorem advance_completes {s : State} (hb : s.blocked = false) (ha : Answers s) (rest : List CmdWord) :
    (advance rest s).out = s.out ∧ (advance rest s).sequencer = rest ∧ (advance rest s).blocked = false ∧
      Answers (advance rest s) := by
  unfold advance
  rw [if_neg (by simp [hb])]
  exact ⟨rfl, rfl, hb, ha⟩

/-- A sequence run from the state whose sequencer holds it is its first command, then the rest. -/
theorem runSequence_loaded {s : State} {w : CmdWord} {rest : List CmdWord} (hb : s.blocked = false)
    (hs : s.sequencer = w :: rest) : runSequence (w :: rest) s = runSequence rest (advance rest (performWord w s)) := by
  have hload : { s with sequencer := w :: rest } = s := by rw [← hs]
  rw [runSequence, if_neg (by simp [hb]), hload]

/-- A running sequence, its commands done one a step, ends where it ends when it is run at once. -/
theorem run_sequencer {ws : List CmdWord} (hk : ∀ w ∈ ws, (decodeCommand w).isSome = true) :
    ∀ {s : State}, s.blocked = false → Answers s → s.sequencer = ws → core.run ws.length s = .next (runSequence ws s) := by
  induction ws with
  | nil => intros; rfl
  | cons w rest ih =>
    intro s hb ha hs
    obtain ⟨i, hd⟩ := Option.isSome_iff_exists.1 (hk w List.mem_cons_self)
    obtain ⟨-, pb, pa⟩ := performWord_completes hb ha w
    obtain ⟨-, as, ab, aa⟩ := advance_completes pb pa rest
    have hstep : step s = .next (advance rest (performWord w s)) := by
      have hf := fetch_command hb hs hd
      simp only [step, hf, exec_of_decodeCommand hd, afterCommand]
    rw [runSequence_loaded hb hs, List.length_cons]
    exact run_succ_next_iff.2 ⟨_, hstep, ih (fun v hv => hk v (List.mem_cons_of_mem _ hv)) ab aa as⟩

/-- Running a sequence loads the sequencer with it first. -/
theorem runSequence_load {ws : List CmdWord} {s : State} (hb : s.blocked = false) (hne : ws ≠ []) :
    runSequence ws { s with sequencer := ws } = runSequence ws s := by
  cases ws with
  | nil => exact absurd rfl hne
  | cons w rest => simp [runSequence, hb]

/-- A sequence in the sequencer, one command a step, is the sequence run at once. -/
theorem run_sequence {ws : List CmdWord} {s : State} (hb : s.blocked = false) (ha : Answers s) (hne : ws ≠ [])
    (hk : ∀ w ∈ ws, (decodeCommand w).isSome = true) :
    core.run ws.length { s with sequencer := ws } = .next (runSequence ws s) := by
  rw [← runSequence_load hb hne]
  exact run_sequencer hk (s := { s with sequencer := ws }) hb ha rfl

theorem renderSequence_known (cfg : Cfg) :
    renderSequence cfg ≠ [] ∧ ∀ w ∈ renderSequence cfg, (decodeCommand w).isSome = true := by
  refine ⟨by simp [renderSequence], ?_⟩
  simp only [renderSequence, List.mem_cons, List.not_mem_nil, or_false]
  rintro w (rfl | rfl | rfl) <;> rfl

theorem exec_construct_accepted {w h : Byte} {s : State} (hu : s.ctrl = .uninitialized) (hg : geometryOk w h = true)
    (a : BitVec 7) (e : Bool) :
    exec (.construct w h a e) s = .next (runSequence (initSequence h e) (beginConstruct w h a e s)) := by
  show execConstruct w h a e s = _
  simp [execConstruct, hu, hg]

theorem exec_render (s : State) : exec .render s = whenReady (fun s => runSequence (renderSequence s.cfg) s) s := rfl

theorem exec_setContrast (level : Byte) (s : State) :
    exec (.setContrast level) s = whenReady (runSequence [.cmd1 0x81 level]) s := rfl

theorem exec_setInvert (invert : Bool) (s : State) :
    exec (.setInvert invert) s = whenReady (runSequence [.cmd0 (displayModeOp invert)]) s := rfl

theorem accepts_construct_iff {s : State} {w h : Byte} {a : BitVec 7} {e : Bool} :
    accepts s (.construct w h a e) = true ↔ s.ctrl = .uninitialized ∧ geometryOk w h = true := by
  simp [accepts]

/-- Settles O51: both operations run their sequence at once, and the steps of a running sequence are its commands. -/
theorem sequencesRunAtOnceOrStepByStep : Obligations.SequencesRunAtOnceOrStepByStep := by
  intro s hb ha
  refine ⟨fun w h a e hacc => ?_, fun hr => ?_⟩
  · obtain ⟨hu, hg⟩ := accepts_construct_iff.1 hacc
    obtain ⟨hne, hk⟩ := initSequence_known h e
    rw [exec_construct_accepted hu hg]
    exact run_sequence (s := beginConstruct w h a e s) hb ha hne hk
  · obtain ⟨hne, hk⟩ := renderSequence_known s.cfg
    rw [exec_render, whenReady_of_ready _ hr]
    exact run_sequence hb ha hne hk

/-! ### The operations of the controller (R205, R210 to R213) -/

theorem initSequence_noData (h : Byte) (e : Bool) : ∀ w ∈ initSequence h e, w ≠ .data := by simp [initSequence]

/-- CONSTRUCT's init sequence when the transport answers. -/
theorem runSequence_init_answered {s : State} (hb : s.blocked = false) (ha : Answers s) (w h : Byte) (a : BitVec 7) (e : Bool) :
    runSequence (initSequence h e) (beginConstruct w h a e s) =
      { beginConstruct w h a e s with
        sequencer := []
        ctrl := .ready
        out := sent (beginConstruct w h a e s) ((initSequence h e).flatMap (wordBytes []))
        transport := s.transport.drop 25 } :=
  runSequence_answered (initSequence_known h e).1 (initSequence_noData h e) [] (s := beginConstruct w h a e s) hb ha

theorem geometryOk_iff {w h : Byte} : geometryOk w h = true ↔ w ≠ 0 ∧ h ≠ 0 ∧ h.toNat % 8 = 0 := by
  simp [geometryOk, and_assoc]

/-- Settles O26: begun with nothing written to the framebuffer, CONSTRUCT sends the transactions of its sixteen command words. -/
theorem constructOperation : Obligations.ConstructOperation := by
  intro w h a e s hu hw hh hm hb ha
  refine ⟨_, exec_construct_accepted hu (geometryOk_iff.2 ⟨hw, hh, hm⟩) a e, ?_⟩
  rw [runSequence_init_answered hb ha]
  exact ⟨rfl, fun i => rfl⟩

/-- A sequence that ends with the data transfer: the frame is what the framebuffer held at the start, since no command word
writes it. -/
theorem runSequence_append_data_answered {ws : List CmdWord} (hws : ∀ w ∈ ws, w ≠ .data) :
    ∀ {s : State}, s.blocked = false → Answers s →
    runSequence (ws ++ [.data]) s =
      { s with
        sequencer := []
        ctrl := if s.ctrl = .initializing then .ready else s.ctrl
        fb := memWrite s.fb 0 0x40
        out := sent s ((ws ++ [CmdWord.data]).flatMap (wordBytes (0x40 :: pixelBytes s)))
        transport := s.transport.drop ((ws ++ [CmdWord.data]).flatMap (wordBytes (0x40 :: pixelBytes s))).length } := by
  induction ws with
  | nil => exact fun hb ha => runSequence_data_answered hb ha
  | cons w rest ih =>
    intro s hb ha
    rw [List.cons_append, runSequence_cons_answered hb ha (hws w List.mem_cons_self) (0x40 :: pixelBytes s),
      ih (fun v hv => hws v (List.mem_cons_of_mem _ hv)) (by simpa using hb) (answers_drop ha rfl)]
    simp [sent, List.drop_drop, pixelBytes, fbRead]

/-- RENDER's sequence when the transport answers. -/
theorem runSequence_render_answered {s : State} (hr : s.ctrl = .ready) (hb : s.blocked = false) (ha : Answers s) :
    runSequence (renderSequence s.cfg) s =
      { s with
        sequencer := []
        fb := memWrite s.fb 0 0x40
        out := sent s [[0x00, 0x22], [0x00, 0x00], [0x00, lastPage s.cfg], [0x00, 0x21], [0x00, 0x00],
          [0x00, lastColumn s.cfg], 0x40 :: pixelBytes s]
        transport := s.transport.drop 7 } := by
  have hseq : renderSequence s.cfg = [.cmd2 0x22 0x00 (lastPage s.cfg), .cmd2 0x21 0x00 (lastColumn s.cfg)] ++ [.data] := rfl
  rw [hseq, runSequence_append_data_answered (by simp) hb ha]
  simp [hr, wordBytes]

/-- The last transaction, if it is a data transfer, is what the screen shows. -/
theorem lastFrame_sent (s : State) (bs : List (List Byte)) (frame : List Byte) :
    lastFrame (sent s (bs ++ [0x40 :: frame])) = some frame := by
  simp [lastFrame, sent]

theorem refused_of_uninitialized {i : Instr} {f : State → State} {s : State} (he : exec i s = whenReady f s)
    (hu : s.ctrl = .uninitialized) : RefusedWrongState i s := (gated_operation (P := fun _ => True) he trivial).2 hu

/-- Settles O28: the last of the seven transactions is the framebuffer's frame, and no pixel byte changes. -/
theorem renderOperation : Obligations.RenderOperation := by
  refine fun s => ⟨fun hr hb ha => ?_, refused_of_uninitialized (exec_render s)⟩
  have hsend := runSequence_sends_any (renderSequence s.cfg) s
  refine ⟨_, (exec_render s).trans (whenReady_of_ready _ hr), ?_, ?_, fun a h0 => hsend.fbRead h0, ?_⟩
  · rw [runSequence_render_answered hr hb ha]
    rfl
  · rw [runSequence_render_answered hr hb ha]
    exact fbRead_fbWrite_self 0 0x40 s
  · rw [hsend.pixelBytes, runSequence_render_answered hr hb ha]
    exact lastFrame_sent s [_, _, _, _, _, _] (pixelBytes s)

/-- Settles O29: each is a sequence of one command word. -/
theorem contrastAndInvertOperations : Obligations.ContrastAndInvertOperations := by
  intro level invert s
  have ready {w : CmdWord} (hw : w ≠ .data) (hr : s.ctrl = .ready) (hb : s.blocked = false) (ha : Answers s) :
      whenReady (runSequence [w]) s = .next { s with
        sequencer := []
        transport := s.transport.drop (wordBytes [] w).length
        out := sent s (wordBytes [] w) } := by
    rw [whenReady_of_ready _ hr, runSequence_answered (by simp) (by simpa using hw) [] hb ha]
    simp [hr]
  refine ⟨fun hr hb ha => ⟨?_, ?_⟩, fun hu => ⟨?_, ?_⟩⟩
  · exact (exec_setContrast level s).trans (ready nofun hr hb ha)
  · exact (exec_setInvert invert s).trans (ready nofun hr hb ha)
  · exact refused_of_uninitialized (exec_setContrast level s) hu
  · exact refused_of_uninitialized (exec_setInvert invert s) hu

/-- Settles O30: a gated `forget`, whose bytes and configuration are the free values of the next draw. -/
theorem destroyOperation : Obligations.DestroyOperation := fun s =>
  gated_operation (exec_destroy s) ⟨rfl, fun _ => rfl, rfl, rfl, rfl, rfl, rfl⟩

/-! ### Every accepted instruction completes (R214, R216 (c)) -/

/-- The instruction is executed without a refusal, and when the transport answers it emits its number of transactions. -/
def Completes (i : Instr) (s : State) : Prop :=
  ∃ t, exec i s = .next t ∧ t.refusals = s.refusals ∧
    (s.blocked = false → Answers s → t.out.length = s.out.length + transactionCount i ∧ t.blocked = false)

theorem transactionCount_of_isDrawing {i : Instr} (hd : isDrawing i = true) : transactionCount i = 0 := by
  cases i with
  | clear | setPixel | clearPixel | drawLine | drawBox | drawChar | drawText => rfl
  | _ => simp [isDrawing] at hd

/-- A command emits the transactions of its command word (30_encoding.md R101, R102). -/
theorem transactionCount_of_decodeCommand {w : CmdWord} {i : Instr} (h : decodeCommand w = some i) :
    transactionCount i = (wordBytes [] w).length := by
  cases w with
  | cmd0 op | cmd1 op a1 | cmd2 op a1 a2 =>
    simp only [decodeCommand, decodeCmd0, decodeCmd1, decodeCmd2] at h
    split at h <;> cases h <;> rfl
  | data => cases h; rfl

/-- An operation of the device side is one of these five. -/
theorem deviceOperation_cases {i : Instr} (hd : isDrawing i = false) (ho : isOperation i = true) :
    (∃ w h a e, i = .construct w h a e) ∨ i = .destroy ∨ i = .render ∨ (∃ level, i = .setContrast level) ∨
      ∃ invert, i = .setInvert invert := by
  cases i with
  | construct | destroy | render | setContrast | setInvert => simp
  | clear | setPixel | clearPixel | drawLine | drawBox | drawChar | drawText => simp [isDrawing] at hd
  | _ => simp [isOperation] at ho

/-- An executed effect that touches the framebuffer only completes without a transaction. -/
theorem completes_of_onlyFb {i : Instr} {s t : State} (he : exec i s = .next t) (ht : OnlyFb s t)
    (hc : transactionCount i = 0) : Completes i s := by
  refine ⟨t, he, by rw [ht], fun hb _ => ⟨?_, ?_⟩⟩
  · rw [ht, hc]; rfl
  · rw [ht]; exact hb

/-- When the transport answers, a sequence emits the transactions of its words. -/
theorem runSequence_completes (ws : List CmdWord) {s : State} (hb : s.blocked = false) (ha : Answers s) :
    (runSequence ws s).out.length = s.out.length + (ws.flatMap (wordBytes [])).length ∧ (runSequence ws s).blocked = false := by
  induction ws generalizing s with
  | nil => exact ⟨rfl, hb⟩
  | cons w rest ih =>
    obtain ⟨po, pb, pa⟩ := performWord_completes (s := { s with sequencer := w :: rest }) hb ha w
    obtain ⟨ao, -, ab, aa⟩ := advance_completes pb pa rest
    obtain ⟨ro, rb⟩ := ih ab aa
    rw [runSequence, if_neg (by simp [hb])]
    refine ⟨?_, rb⟩
    rw [ro, ao, po, List.flatMap_cons, List.length_append]
    exact Nat.add_assoc _ _ _

/-- An executed sequence completes with the transactions of its words; `u` is the state it begins with. -/
theorem completes_of_runSequence {i : Instr} {s u : State} {ws : List CmdWord} (he : exec i s = .next (runSequence ws u))
    (hu : u.out = s.out ∧ u.refusals = s.refusals ∧ u.blocked = s.blocked ∧ u.transport = s.transport)
    (hc : (ws.flatMap (wordBytes [])).length = transactionCount i) : Completes i s := by
  obtain ⟨ho, hr, hb, ht⟩ := hu
  refine ⟨_, he, (runSequence_sends_any ws u).refusals.trans hr, fun hb' ha => ?_⟩
  rw [← hc, ← ho]
  exact runSequence_completes ws (hb.trans hb') (by rw [Answers, ht]; exact ha)

/-- A gated sequence completes while Ready. -/
theorem completes_of_whenReady {i : Instr} {s : State} {f : State → State} {ws : List CmdWord} (he : exec i s = whenReady f s)
    (hr : s.ctrl = .ready) (hf : f s = runSequence ws s) (hc : (ws.flatMap (wordBytes [])).length = transactionCount i) :
    Completes i s :=
  completes_of_runSequence (u := s) (by rw [he, whenReady_of_ready f hr, hf]) ⟨rfl, rfl, rfl, rfl⟩ hc

theorem command_completes {i : Instr} {w : CmdWord} (hd : decodeCommand w = some i) (s : State) : Completes i s := by
  refine ⟨_, exec_of_decodeCommand hd s, (performWord_sends w s).1.refusals, fun hb ha => ?_⟩
  obtain ⟨ho, hb', -⟩ := performWord_completes hb ha w
  exact ⟨ho.trans (by rw [transactionCount_of_decodeCommand hd]), hb'⟩

/-- Every operation but CONSTRUCT is accepted while Ready (44_controller.md R214). -/
theorem ready_of_accepts {i : Instr} {s : State} (hacc : accepts s i = true) (ho : isOperation i = true)
    (hi : ∀ w h a e, i ≠ .construct w h a e) : s.ctrl = .ready := by
  cases i with
  | construct w h a e => exact absurd rfl (hi w h a e)
  | _ => simpa [accepts, ho] using hacc

theorem isOperation_of_isDrawing {i : Instr} (hd : isDrawing i = true) : isOperation i = true := by
  cases i with
  | clear | setPixel | clearPixel | drawLine | drawBox | drawChar | drawText => rfl
  | _ => simp [isDrawing] at hd

theorem drawing_completes {i : Instr} {s : State} (hd : isDrawing i = true) (hr : s.ctrl = .ready) : Completes i s := by
  have hc := transactionCount_of_isDrawing hd
  obtain ⟨set, ps, he⟩ | he := exec_drawing hd
  · exact completes_of_onlyFb ((he s).trans (whenReady_of_ready _ hr)) (plotAll_onlyFb set ps s) hc
  · exact completes_of_onlyFb ((he s).trans (whenReady_of_ready _ hr)) (clearAll_onlyFb s) hc

theorem deviceOperation_completes {i : Instr} {s : State} (hd : isDrawing i = false) (ho : isOperation i = true)
    (h : accepts s i = true) : Completes i s := by
  obtain ⟨w, hgt, a, e, rfl⟩ | rfl | rfl | ⟨level, rfl⟩ | ⟨invert, rfl⟩ := deviceOperation_cases hd ho
  · obtain ⟨hu, hg⟩ := accepts_construct_iff.1 h
    exact completes_of_runSequence (exec_construct_accepted hu hg a e) ⟨rfl, rfl, rfl, rfl⟩ rfl
  all_goals have hr : s.ctrl = .ready := ready_of_accepts h ho nofun
  · exact ⟨_, (exec_destroy s).trans (whenReady_of_ready _ hr), rfl, fun hb _ => ⟨rfl, hb⟩⟩
  · exact completes_of_whenReady (exec_render s) hr rfl rfl
  · exact completes_of_whenReady (exec_setContrast level s) hr rfl rfl
  · exact completes_of_whenReady (exec_setInvert invert s) hr rfl rfl

/-- Settles O43: a drawing operation, an operation of the device side, or a command. -/
theorem acceptedInstructionsComplete : Obligations.AcceptedInstructionsComplete := by
  intro i s h
  show Completes i s
  cases hd : isDrawing i with
  | true =>
    refine drawing_completes hd (ready_of_accepts h (isOperation_of_isDrawing hd) fun w hgt a e hi => ?_)
    simp [hi, isDrawing] at hd
  | false =>
    cases ho : isOperation i with
    | true => exact deviceOperation_completes hd ho h
    | false =>
      obtain ⟨w, hgt, a, e, rfl⟩ | rfl | ⟨ho', -⟩ | ⟨-, w, hw, -⟩ := exec_device hd
      · simp [isOperation] at ho
      · simp [isOperation] at ho
      · simp [ho] at ho'
      · exact command_completes hw s

/-! ### The drawing side and the device side are separate (R216 (e)) -/

/-- A gated effect on the framebuffer changes nothing else, and refused it changes the record only. -/
theorem whenReady_drawing {f : State → State} {s t : State} (hf : OnlyFb s (f s)) (h : whenReady f s = .next t) :
    t = { s with fb := t.fb, refusals := t.refusals } := by
  obtain ⟨-, rfl⟩ | ⟨-, rfl⟩ := whenReady_next h
  · rw [hf]
  · rfl

/-- Settles O45: a drawing operation is a gated effect on the framebuffer, a command or a sequence has the frame `Sends`. -/
theorem drawingAndDeviceSidesAreSeparate : Obligations.DrawingAndDeviceSidesAreSeparate := by
  intro i s t h
  refine ⟨fun hd => ?_, fun hd hcon hdes => ?_⟩
  · obtain ⟨set, ps, he⟩ | he := exec_drawing hd
    · exact whenReady_drawing (plotAll_onlyFb set ps s) (he s ▸ h)
    · exact whenReady_drawing (clearAll_onlyFb s) (he s ▸ h)
  · have frame (hS : Sends s t) : t.cfg = s.cfg ∧ t.draw = s.draw ∧ ∀ a, a ≠ 0 → fbRead t a = fbRead s a :=
      ⟨hS.cfg, hS.draw, fun _ h0 => hS.fbRead h0⟩
    obtain ⟨w, hgt, a, e, hi⟩ | hi | ⟨-, ws, -, he⟩ | ⟨-, w, -, he⟩ := exec_device hd
    · exact absurd hi (hcon w hgt a e)
    · exact absurd hi hdes
    · rw [he] at h
      obtain ⟨-, rfl⟩ | ⟨-, rfl⟩ := whenReady_next h
      · exact frame (runSequence_sends_any _ s)
      · exact ⟨rfl, rfl, fun _ _ => rfl⟩
    · rw [he] at h
      cases h
      exact frame (performWord_sends w s).1

/-! ### The transitions of STATE (R215) -/

/-- After a sequence STATE is as it was, or it was Initializing and the block is Ready. -/
theorem runSequence_ctrl {ws : List CmdWord} {s : State} (hb : s.blocked = false) (hne : ws ≠ []) :
    ((runSequence ws s).blocked = true ∧ (runSequence ws s).ctrl = s.ctrl) ∨
      (runSequence ws s).ctrl = if s.ctrl = .initializing then .ready else s.ctrl := by
  obtain ⟨-, hdone, hstop⟩ := runSequence_sends ws s hb
  cases hq : (runSequence ws s).blocked with
  | true => exact .inl ⟨rfl, (hstop hq).2⟩
  | false => exact .inr (hdone hq hne).2

/-- The only descriptor of DESTROY is its opcode. -/
theorem descriptor_of_destroy {d : List Byte} (h : decodeDescriptor d = .ok .destroy) : d = [0x01] := by
  have henc : encode .destroy = .operation d := encode_of_decodeDescriptor h
  cases henc
  rfl

/-- An executed operation that changes STATE: CONSTRUCT accepted, or DESTROY while Ready. -/
theorem exec_ctrl_ne {i : Instr} {s t : State} (hb : s.blocked = false) (ho : isOperation i = true) (h : exec i s = .next t)
    (hne : s.ctrl ≠ t.ctrl) :
    (s.ctrl = .uninitialized ∧ (t.ctrl = .ready ∨ (t.ctrl = .initializing ∧ t.blocked = true)) ∧
      ∃ w hgt a e, i = .construct w hgt a e ∧ geometryOk w hgt = true) ∨
    (t.ctrl = .uninitialized ∧ s.ctrl = .ready ∧ i = .destroy) := by
  cases exec_result h with
  | refused c => exact absurd rfl hne
  | plotted set ps => exact absurd (by rw [plotAll_onlyFb set ps s]) hne
  | cleared => exact absurd (by rw [clearAll_onlyFb s]) hne
  | constructed w hgt a e hi hu hg =>
    refine .inl ⟨hu, ?_, w, hgt, a, e, hi, hg⟩
    obtain ⟨hq, hc⟩ | hc := runSequence_ctrl (s := beginConstruct w hgt a e s) hb (initSequence_known hgt e).1
    · exact .inr ⟨hc, hq⟩
    · exact .inl hc
  | destroyed hi hr => exact .inr ⟨rfl, hr, hi⟩
  | sequenced ws hr hws =>
    obtain ⟨-, hc⟩ | hc := runSequence_ctrl hb hws
    · exact absurd hc.symm hne
    · exact absurd (by simp [hc, hr]) hne
  | commanded w hn => simp [ho] at hn

/-- A sequencer's move that changes STATE: the last command of an init sequence is answered. -/
theorem advance_ctrl_ne {rest : List CmdWord} {s : State} (hne : s.ctrl ≠ (advance rest s).ctrl) :
    s.ctrl = .initializing ∧ (advance rest s).ctrl = .ready ∧ rest = [] ∧ (advance rest s).sequencer = [] := by
  obtain ⟨-, -, hmove, hstay⟩ := advance_sends rest s
  cases hb : s.blocked with
  | true => exact absurd (by rw [hstay hb]) hne
  | false =>
    obtain ⟨hq, hc⟩ := hmove hb
    by_cases hlast : rest = [] ∧ s.ctrl = .initializing
    · rw [if_pos hlast] at hc
      exact ⟨hlast.2, hc, hlast.1, hq.trans hlast.1⟩
    · rw [if_neg hlast] at hc
      exact absurd hc.symm hne

/-- Settles O47: STATE is changed by a reset, by the end of the running sequence, or by the operation the host presents. -/
theorem stateTransitions : Obligations.StateTransitions := by
  intro s t h hne
  obtain ⟨-, rest, hh, rfl⟩ | ⟨hb, hcase⟩ := step_cases h
  · exact .inr (.inr ⟨rfl, .inl (by simp [hh])⟩)
  · obtain ⟨w, rest, i, u, hs, hd, he, rfl⟩ |
        ⟨-, ⟨-, rfl⟩ | ⟨rest, hh, rfl⟩ | ⟨d, rest, i, hh, hd, he⟩ | ⟨d, rest, c, -, -, rfl⟩⟩ := hcase
    · rw [exec_of_decodeCommand hd] at he
      cases he
      obtain ⟨-, hkeep, -⟩ := performWord_sends w s
      obtain ⟨hi, hr, hlast, hq⟩ := advance_ctrl_ne (hkeep ▸ hne)
      exact .inr (.inl ⟨hkeep.symm.trans hi, hr, by simp [hs, hlast], hq⟩)
    · exact absurd rfl hne
    · exact .inr (.inr ⟨rfl, .inl (by simp [hh])⟩)
    · obtain ⟨hu, ht, w, hgt, a, e, rfl, hg⟩ | ⟨ht, hr, rfl⟩ :=
        exec_ctrl_ne (s := { s with host := rest }) hb (isOperation_of_decodeDescriptor hd) he hne
      · exact .inl ⟨hu, ht, d, w, hgt, a, e, by simp [hh], hd, hg⟩
      · exact .inr (.inr ⟨ht, .inr ⟨hr, by simp [hh, descriptor_of_destroy hd]⟩⟩)
    · exact absurd rfl hne

end Sys2Proof.Machine
end

section
/-! PROOF. 60_exceptions.md: the order of CONSTRUCT's two refusals (R253 RF4, RF5, R256), and a descriptor the decoder refuses (R252, R257). -/

namespace Sys2Proof.Machine

/-! ### CONSTRUCT refused (R253, R256) -/

theorem exec_construct (w h : Byte) (a : BitVec 7) (e : Bool) (s : State) : exec (.construct w h a e) s = execConstruct w h a e s := rfl

/-- RF5 comes first: the operands are not looked at. -/
theorem exec_construct_wrongState {s : State} (hu : s.ctrl ≠ .uninitialized) (w h : Byte) (a : BitVec 7) (e : Bool) :
    exec (.construct w h a e) s = refuse .wrongState s := by
  rw [exec_construct]
  obtain ⟨-, he⟩ | ⟨hu', -, -⟩ | ⟨hu', -, -⟩ := execConstruct_cases w h a e s
  · exact he
  · exact absurd hu' hu
  · exact absurd hu' hu

theorem exec_construct_badGeometry {w h : Byte} {s : State} (hu : s.ctrl = .uninitialized) (hg : geometryOk w h = false)
    (a : BitVec 7) (e : Bool) : exec (.construct w h a e) s = refuse .badGeometry s := by
  rw [exec_construct]
  obtain ⟨hu', -⟩ | ⟨-, -, he⟩ | ⟨-, hg', -⟩ := execConstruct_cases w h a e s
  · exact absurd hu hu'
  · exact he
  · exact absurd hg' (Bool.eq_false_iff.1 hg)

theorem geometryOk_eq_false_iff {w h : Byte} : geometryOk w h = false ↔ w = 0 ∨ h = 0 ∨ h.toNat % 8 ≠ 0 := by
  rw [Bool.eq_false_iff, Ne, geometryOk_iff]
  tauto

/-- Settles O27: while Ready the gate by STATE refuses, while Uninitialized the check of the operands does. -/
theorem constructRefusals : Obligations.ConstructRefusals := by
  intro w h a e s
  refine ⟨fun hr => ?_, fun hu hgeom => ?_⟩
  · have hne : s.ctrl ≠ .uninitialized := by simp [hr]
    exact exec_construct_wrongState hne w h a e
  · exact exec_construct_badGeometry hu (geometryOk_eq_false_iff.2 hgeom) a e

/-! ### A descriptor the decoder refuses (R252, R257) -/

/-- The host's descriptor is taken from its events also when the decoder refuses it. -/
theorem fetch_rejected {s : State} {d : List Byte} {rest : List HostEvent} {c : RefusalCause} (hb : s.blocked = false)
    (hs : s.sequencer = []) (hh : s.host = .operation d :: rest) (hd : decodeDescriptor d = .error c) :
    fetch s = .rejected c { s with host := rest } := by
  simp [fetch, hb, hs, hh, hd]

/-- Settles O38: what such a step fetches is the decoder's cause, which `step` hands to `refuse`. -/
theorem refusedDescriptorChangesNothing : Obligations.RefusedDescriptorChangesNothing := by
  intro s d rest c hb hs hh hd
  have hf := fetch_rejected hb hs hh hd
  simp only [step, hf, refuse]

end Sys2Proof.Machine
end

section
/-! PROOF. 70_reset_and_hazards.md: the hardware reset (R280, R281), and where a command, a sequence and an operation stop when a transaction
is never answered (R292). -/

namespace Sys2Proof.Machine

/-! ### Hardware reset (R280, R281) -/

/-- The host's reset is fetched between operations, and also while the block waits for an answer. -/
theorem fetch_reset {s : State} {rest : List HostEvent} (hs : s.blocked = true ∨ s.sequencer = []) (hh : s.host = .reset :: rest) :
    fetch s = .reset { s with host := rest } := by
  cases hb : s.blocked with
  | true => simp [fetch, hb, hh]
  | false =>
    have hq : s.sequencer = [] := hs.resolve_left (by simp [hb])
    simp [fetch, hb, hq, hh]

/-- Settles O40: what such a step fetches is the reset, and `hardwareReset` keeps nothing of `cfg` and the framebuffer. -/
theorem hardwareResetEvent : Obligations.HardwareResetEvent := by
  intro s rest hs hh
  have hf := fetch_reset hs hh
  refine ⟨hardwareReset { s with host := rest }, ?_, rfl, fun _ => rfl, rfl, rfl, rfl, rfl, rfl⟩
  simp only [step, hf]

/-! ### Stopped at a transaction (R292) -/

/-- `s` after the transactions number 0 to `k` of `bytes` were handed over and the last of them is never answered; the sequencer holds
`left`. -/
def stoppedAt (s : State) (bytes : List (List Byte)) (left : List CmdWord) (k : Nat) : State :=
  { s with
    fb := if 0x40 :: pixelBytes s ∈ bytes.take (k + 1) then memWrite s.fb 0 0x40 else s.fb
    out := sent s (bytes.take (k + 1))
    blocked := true
    sequencer := left
    transport := s.transport.drop (k + 1) }

theorem fbRead_stoppedAt (s : State) (bytes : List (List Byte)) (left : List CmdWord) (k a : Nat) :
    fbRead (stoppedAt s bytes left k) a =
      if a = 0 ∧ 0x40 :: pixelBytes s ∈ bytes.take (k + 1) then 0x40 else fbRead s a := by
  by_cases hm : 0x40 :: pixelBytes s ∈ bytes.take (k + 1)
  · have hfb : (stoppedAt s bytes left k).fb = (fbWrite 0 0x40 s).fb := if_pos hm
    rw [fbRead_congr hfb rfl, fbRead_fbWrite]
    simp only [hm, and_true]
  · have hfb : (stoppedAt s bytes left k).fb = s.fb := if_neg hm
    rw [fbRead_congr hfb rfl]
    simp only [hm, and_false, if_false]

/-- An instruction that answers such a state is blocked there, and stuck. -/
theorem blocksAt_of_exec {i : Instr} {s : State} {bytes : List (List Byte)} {left : List CmdWord} {k : Nat}
    (he : exec i s = .next (stoppedAt s bytes left k)) : BlocksAt i s bytes left k := by
  refine ⟨_, he, rfl, fun a h0 => ?_, ?_, step_stuck (s := stoppedAt s bytes left k) rfl⟩
  · simp [fbRead_stoppedAt, h0]
  · simp [fbRead_stoppedAt]

/-- The transactions after the one that is never answered are not reached. -/
theorem stoppedAt_append_of_lt {s : State} {bytes later : List (List Byte)} {left : List CmdWord} {k : Nat} (hk : k < bytes.length) :
    stoppedAt s (bytes ++ later) left k = stoppedAt s bytes left k := by
  simp only [stoppedAt, List.take_append_of_le_length hk]

/-- `s` after the transactions `bytes` were handed over and answered; the sequencer goes on with `left`. -/
def answeredAt (s : State) (bytes : List (List Byte)) (left : List CmdWord) : State :=
  { s with sequencer := left, out := sent s bytes, transport := s.transport.drop bytes.length }

/-- Stopped after answered command bytes: the state is that of all the transactions together. -/
theorem stoppedAt_answeredAt {s : State} {bs : List (List Byte)} (hbs : 0x40 :: pixelBytes s ∉ bs) (bytes : List (List Byte))
    (queue left : List CmdWord) (k : Nat) :
    stoppedAt (answeredAt s bs queue) bytes left k = stoppedAt s (bs ++ bytes) left (bs.length + k) := by
  have hp : pixelBytes (answeredAt s bs queue) = pixelBytes s := rfl
  simp only [stoppedAt, hp, Nat.add_assoc, List.take_length_add_append, List.mem_append, hbs, false_or]
  simp [answeredAt, sent]

/-! ### A command word, a sequence of them -/

/-- Of the command words only the data transfer has a framebuffer content among its transactions. -/
theorem wordBytes_of_ne_data {w : CmdWord} (hw : w ≠ .data) (frame : List Byte) : wordBytes frame w = wordBytes [] w := by
  cases w with
  | cmd0 | cmd1 | cmd2 => rfl
  | data => exact absurd rfl hw

/-- A command byte pair begins with 0x00, so it is no data transfer. -/
theorem frame_mem_take_wordBytes {w : CmdWord} {pixels : List Byte} {k : Nat} :
    0x40 :: pixels ∈ (wordBytes (0x40 :: pixels) w).take (k + 1) ↔ w = .data := by
  cases w with
  | cmd0 | cmd1 | cmd2 => exact iff_of_false (fun h => by simpa [wordBytes] using List.mem_of_mem_take h) nofun
  | data => simp [wordBytes]

theorem frame_notMem_wordBytes {w : CmdWord} (hw : w ≠ .data) (pixels : List Byte) : 0x40 :: pixels ∉ wordBytes [] w := by
  cases w with
  | cmd0 | cmd1 | cmd2 => simp [wordBytes]
  | data => exact absurd rfl hw

/-- A command word with the transaction that is never answered. -/
theorem performWord_stops {s : State} {w : CmdWord} {k : Nat} (h : NeverAnswers s k)
    (hk : k < (wordBytes (0x40 :: pixelBytes s) w).length) :
    performWord w s = stoppedAt s (wordBytes (0x40 :: pixelBytes s) w) s.sequencer k := by
  rw [performWord_neverAnswers h w hk]
  simp only [stoppedAt, frame_mem_take_wordBytes]

/-- A command word of a sequence whose transactions are all answered: the sequence goes on, nearer to the one that is not. -/
theorem runSequence_cons_beforeNever {s : State} {w : CmdWord} {rest : List CmdWord} {k : Nat} (hw : w ≠ .data) (hr : rest ≠ [])
    (h : NeverAnswers s ((wordBytes [] w).length + k)) :
    runSequence (w :: rest) s = runSequence rest (answeredAt s (wordBytes [] w) rest) ∧
      NeverAnswers (answeredAt s (wordBytes [] w) rest) k := by
  obtain ⟨he, hn⟩ := performWord_beforeNever (s := { s with sequencer := w :: rest }) hw h
  rw [he] at hn
  refine ⟨?_, hn⟩
  rw [runSequence, if_neg (by simp [h.1]), he, advance, if_neg (by simp [h.1])]
  simp [hr, sent, answeredAt]

/-- A sequence stops in the word `w` that has the transaction never answered; the words `done` before it are answered. -/
theorem runSequence_stops {done rest : List CmdWord} {w : CmdWord} {j : Nat} (hdone : ∀ v ∈ done, v ≠ .data) {s : State}
    (h : NeverAnswers s ((done.flatMap (wordBytes [])).length + j)) (hj : j < (wordBytes (0x40 :: pixelBytes s) w).length) :
    runSequence (done ++ w :: rest) s =
      stoppedAt s ((done ++ w :: rest).flatMap (wordBytes (0x40 :: pixelBytes s))) (w :: rest)
        ((done.flatMap (wordBytes [])).length + j) := by
  induction done generalizing s with
  | nil =>
    simp only [List.flatMap_nil, List.length_nil, Nat.zero_add] at h
    simp only [List.nil_append, List.flatMap_cons, List.flatMap_nil, List.length_nil, Nat.zero_add]
    rw [stoppedAt_append_of_lt hj, runSequence_neverAnswers h hj]
    simp only [stoppedAt, frame_mem_take_wordBytes]
  | cons v done ih =>
    have hv : v ≠ .data := hdone v List.mem_cons_self
    rw [List.flatMap_cons, List.length_append, Nat.add_assoc] at h
    obtain ⟨he, hn⟩ := runSequence_cons_beforeNever (rest := done ++ w :: rest) hv (by simp) h
    rw [List.cons_append, he, ih (fun u hu => hdone u (List.mem_cons_of_mem _ hu)) hn hj,
      stoppedAt_answeredAt (frame_notMem_wordBytes hv _)]
    simp only [List.flatMap_cons, List.length_append, Nat.add_assoc, wordBytes_of_ne_data hv (0x40 :: pixelBytes s)]
    rfl

/-- Transaction number `k` of a sequence is number `j` of one of its words. -/
theorem exists_word_of_transaction {frame : List Byte} {ws : List CmdWord} {k : Nat} (hk : k < (ws.flatMap (wordBytes frame)).length) :
    ∃ done w rest j, ws = done ++ w :: rest ∧ k = (done.flatMap (wordBytes frame)).length + j ∧ j < (wordBytes frame w).length := by
  induction ws generalizing k with
  | nil => simp at hk
  | cons w rest ih =>
    by_cases hw : k < (wordBytes frame w).length
    · exact ⟨[], w, rest, k, rfl, by simp, hw⟩
    · rw [List.flatMap_cons, List.length_append] at hk
      obtain ⟨done, v, tail, j, rfl, hj, hlt⟩ := ih (k := k - (wordBytes frame w).length) (by omega)
      refine ⟨w :: done, v, tail, j, rfl, ?_, hlt⟩
      rw [List.flatMap_cons, List.length_append]
      omega

theorem flatMap_wordBytes_of_noData {ws : List CmdWord} (hws : ∀ w ∈ ws, w ≠ .data) (frame : List Byte) :
    ws.flatMap (wordBytes frame) = ws.flatMap (wordBytes []) :=
  List.flatMap_congr fun w hw => wordBytes_of_ne_data (hws w hw) frame

/-- A sequence without the data transfer stops at any of its transactions; it stops in one of its words. -/
theorem runSequence_noData_stops {ws : List CmdWord} (hws : ∀ w ∈ ws, w ≠ .data) {s : State} {k : Nat} (h : NeverAnswers s k)
    (hk : k < (ws.flatMap (wordBytes [])).length) :
    ∃ left, runSequence ws s = stoppedAt s (ws.flatMap (wordBytes [])) left k := by
  obtain ⟨done, w, rest, j, rfl, rfl, hj⟩ := exists_word_of_transaction hk
  have hdone : ∀ v ∈ done, v ≠ .data := fun v hv => hws v (List.mem_append_left _ hv)
  have hw : w ≠ .data := hws w (by simp)
  refine ⟨w :: rest, ?_⟩
  rw [runSequence_stops hdone h (by rwa [wordBytes_of_ne_data hw]), flatMap_wordBytes_of_noData hws]

/-! ### The operations that emit -/

/-- The transport's answers `before` are followed by none. -/
theorem neverAnswers_of_append {s : State} {before after : List TransportAnswer} (hb : s.blocked = false)
    (hbefore : ∀ r ∈ before, r ≠ .never) (ht : s.transport = before ++ .never :: after) : NeverAnswers s before.length := by
  refine ⟨hb, ?_, ?_⟩
  · rwa [ht, List.take_left]
  · simp [ht]

/-- Settles O41: the init sequence has 25 transactions, none of them the data transfer, and stops at number `k`. -/
theorem unansweredTransactionBlocksForEver : Obligations.UnansweredTransactionBlocksForEver := by
  rintro w h a e s k before after hu hg hb hk rfl hbefore ht
  have hn : NeverAnswers (beginConstruct w h a e s) before.length := neverAnswers_of_append hb hbefore ht
  obtain ⟨left, hstop⟩ := runSequence_noData_stops (initSequence_noData h e) hn hk
  refine ⟨_, exec_construct_accepted hu hg a e, ?_⟩
  rw [hstop]
  refine ⟨rfl, rfl, ?_, rfl, rfl, step_stuck rfl⟩
  show s.transport.drop (before.length + 1) = after
  simp [ht]

/-- While Ready an operation that runs one sequence is blocked in the sequence's word that has the transaction never answered. -/
theorem sequence_blocksAt {i : Instr} {f : State → State} {s : State} {k : Nat} (he : exec i s = whenReady f s) (hr : s.ctrl = .ready)
    (h : NeverAnswers s k) (done : List CmdWord) (w : CmdWord) (rest : List CmdWord) (j : Nat)
    (hf : f s = runSequence (done ++ w :: rest) s) (hdone : ∀ v ∈ done, v ≠ .data)
    (hk : k = (done.flatMap (wordBytes [])).length + j) (hj : j < (wordBytes (0x40 :: pixelBytes s) w).length) :
    BlocksAt i s ((done ++ w :: rest).flatMap (wordBytes (0x40 :: pixelBytes s))) (w :: rest) k := by
  subst hk
  refine blocksAt_of_exec ?_
  rw [he, whenReady_of_ready f hr, hf, runSequence_stops hdone h hj]

/-- RENDER's words have three, three and one transaction: number `k` is one of word number `k / 3`. -/
theorem render_blocksAt {s : State} {k : Nat} (hr : s.ctrl = .ready) (h : NeverAnswers s k) (hk : k < 7) :
    BlocksAt .render s ((renderSequence s.cfg).flatMap (wordBytes (0x40 :: pixelBytes s))) ((renderSequence s.cfg).drop (k / 3)) k := by
  have blocks := sequence_blocksAt (exec_render s) hr h
  obtain hq | hq | hq : k / 3 = 0 ∨ k / 3 = 1 ∨ k / 3 = 2 := by omega
  all_goals rw [hq]
  · exact blocks [] _ _ k rfl nofun (by simp) (show k < 3 by omega)
  · exact blocks [_] _ _ (k - 3) rfl (by simp) (show k = 3 + (k - 3) by omega) (show k - 3 < 3 by omega)
  · exact blocks [_, _] _ _ (k - 6) rfl (by simp) (show k = 6 + (k - 6) by omega) (show k - 6 < 1 by omega)

/-- Settles O57: RENDER's three words, and the one word of the two others. -/
theorem unansweredOperationBlocksForEver : Obligations.UnansweredOperationBlocksForEver := by
  intro level invert s k hr h
  have hk0 : k = 0 + k := (Nat.zero_add k).symm
  refine ⟨render_blocksAt hr h, fun hk => ?_, fun hk => ?_⟩
  · exact sequence_blocksAt (exec_setContrast level s) hr h [] _ [] k rfl nofun hk0 hk
  · exact sequence_blocksAt (exec_setInvert invert s) hr h [] _ [] k rfl nofun hk0 hk

/-- Settles O58: the instruction of a command word does what the sequencer does for the word, which leaves the sequencer as it is. -/
theorem unansweredCommandBlocksForEver : Obligations.UnansweredCommandBlocksForEver := by
  intro w i s k hd h hk
  refine blocksAt_of_exec ?_
  rw [exec_of_decodeCommand hd, performWord_stops h hk]

end Sys2Proof.Machine
end
